-- ==== Sys2Proof/Word.lean ====
section
/-! DEFINITION. The word types of PCRS (spec/00_scope.md rule R9): nothing here is signed and no operation sign-extends. -/

namespace Sys2Proof

/-- A byte, a u8 of rule R9. -/
abbrev Byte := BitVec 8

/-- A byte string of rule R9, the first byte first. -/
abbrev Bytes := List Byte

/-- A sequence identifier: the u16 that is also the window's address (rules R20, R51). -/
abbrev SeqId := BitVec 16

/-- The 4-bit packet type of rule R79. -/
abbrev TypeCode := BitVec 4

/-- The 12-bit packet flag set of rule R27. -/
abbrev FlagSet := BitVec 12

end Sys2Proof
end

