-- ==== Sys2Proof/Config.lean ====
section
/-! DEFINITION. The implementation parameters of spec/00_scope.md rule R7, the values they are strapped to, and the free values of
the model: constants without a body, of which nothing can be proved but that they have a value. -/

namespace Sys2Proof

/-- The configuration record `Cfg` of rule R7, every parameter a field: what is strapped at reset and read-only afterwards (rule R35). -/
structure Cfg where
  /-- `VERSION`, the only version PARSE and SER give a meaning; fixed. -/
  version : Byte
  /-- `SIG_LEN`, the length in bytes of the packet signature and of the connection signature; fixed. -/
  sigLen : Nat
  /-- `CAP`, the capacity of the window in entries. -/
  cap : Nat
  /-- `RTO_TICKS`, the value a retransmit timer is armed with. -/
  rtoTicks : Nat
  /-- `TICK_PERIOD`, the length of one TICK on the wall clock: no rule depends on it (log entry 11). -/
  tickPeriod : Nat
  /-- `T_SYN`. -/
  tSyn : TypeCode
  /-- `T_CONNECT`. -/
  tConnect : TypeCode
  /-- `T_DATA`. -/
  tData : TypeCode
  /-- `T_DISCONNECT`. -/
  tDisconnect : TypeCode
  /-- `T_PING`. -/
  tPing : TypeCode
  /-- `F_ACK`. -/
  fAck : FlagSet
  /-- `F_RELIABLE`. -/
  fReliable : FlagSet
  /-- `F_NEED_ACK`. -/
  fNeedAck : FlagSet
  /-- `F_HAS_SIZE`. -/
  fHasSize : FlagSet
  /-- `F_MULTI_ACK`. -/
  fMultiAck : FlagSet
  /-- `DATA_ACK_SIG`, the sentinel signature of a DATA ack. -/
  dataAckSig : Bytes
  /-- `MAX_FRAME`, the largest frame the buffers hold, in bytes. -/
  maxFrame : Nat
  /-- `FULL_DROPS_UNTRACKED`: whether a full window also drops a send that would not be tracked (rule R185). -/
  fullDropsUntracked : Bool
  /-- `SEQ_RESET`, the reset value of the sequence counter. -/
  seqReset : SeqId
  deriving DecidableEq, Repr

namespace Config

/-- The fixed value of `VERSION` (rule R7), which the rules of the commands write as the number 0. -/
def version : Byte := 0

/-- The fixed value of `SIG_LEN` (rule R7), which the rules of the commands write as the number 4. -/
def sigLen : Nat := 4

/-- The one value of `SEQ_RESET` (rules R7, R32). -/
def seqReset : SeqId := 0

/-- Free value: `RTO_TICKS` less one. Rule R7 leaves `RTO_TICKS` OPEN and asks only that it be at least 1 (log entry 4). -/
opaque rtoTicksLessOne : Nat

/-- Free value: `TICK_PERIOD`, in no unit. Rule R7 leaves it OPEN (log entries 4, 11). -/
opaque tickPeriodLength : Nat

/-- Free value: byte `i` of `DATA_ACK_SIG`. Rules R7 and R146 leave it OPEN, 4 bytes (log entry 4). -/
opaque dataAckByte : Nat → Byte

/-- Free value: the `n`-th byte the random generator supplies. Rule R44 constrains it in no way (log entry 2). -/
opaque rngByte : Nat → Byte

/-- The straps of the machine that `State.reset` describes: the defaults of rule R7, and the free values for what it leaves OPEN. -/
def strapped : Cfg where
  version := version
  sigLen := sigLen
  cap := 5
  rtoTicks := rtoTicksLessOne + 1
  tickPeriod := tickPeriodLength
  tSyn := 0
  tConnect := 1
  tData := 2
  tDisconnect := 3
  tPing := 4
  fAck := 0x001
  fReliable := 0x002
  fNeedAck := 0x004
  fHasSize := 0x008
  fMultiAck := 0x200
  dataAckSig := [dataAckByte 0, dataAckByte 1, dataAckByte 2, dataAckByte 3]
  maxFrame := 65553
  fullDropsUntracked := true
  seqReset := seqReset

end Config

end Sys2Proof
end

