-- ==== Sys2Proof/Syntax.lean ====
section
/-! DEFINITION. The syntax: the Packet operand record (spec/10_state.md rule R20), one constructor of `Instr` for every row of
spec/opcode_table.json with its typed operands (spec/30_encoding.md rules R77, R83, R84), and the forms in which an instruction
reaches the block (`Request`, `Input`). -/

namespace Sys2Proof

/-- The Packet operand record of rule R20, its 12 fields in the spec's order. -/
structure Packet where
  version : Byte
  src : Byte
  dst : Byte
  type : TypeCode
  flags : FlagSet
  sessionId : Byte
  pktSig : Bytes
  seq : SeqId
  fragId : Byte
  connSig : Bytes
  payload : Bytes
  checksum : Byte
  deriving DecidableEq, Repr

/-- The options of MKACK (rule R140): three optional values. -/
structure AckOptions where
  sessionId : Option Byte
  connSig : Option Bytes
  pktSig : Option Bytes
  deriving DecidableEq, Repr

/-- What a packet-type row is applied to. A type selects the layout of a frame in both directions (rules R72, R104, R110):
`parse` reads the frame whose two channel bytes are `src` and `dst` and whose bytes after the type+flags word are `rest`;
`serialise` writes the packet `v`, with the row's type and flags (log entry 7). -/
inductive FormatUse where
  | parse (src dst : Byte) (rest : Bytes)
  | serialise (v : Packet)
  deriving DecidableEq, Repr

/-- The instructions: one constructor for every row of spec/opcode_table.json. The operands are those of rule R83; a packet-type row
has the flags of its type+flags word (rule R84) and what it is applied to. -/
inductive Instr where
  /-- Packet type SYN, rule R84. -/
  | syn (flags : FlagSet) (use : FormatUse)
  /-- Packet type CONNECT, rule R84. -/
  | connect (flags : FlagSet) (use : FormatUse)
  /-- Packet type DATA, rule R84. -/
  | data (flags : FlagSet) (use : FormatUse)
  /-- Packet type DISCONNECT, rule R84. -/
  | disconnect (flags : FlagSet) (use : FormatUse)
  /-- Packet type PING, rule R84. -/
  | ping (flags : FlagSet) (use : FormatUse)
  /-- Version detection, rule R100. -/
  | vdet (buf : Bytes)
  /-- Bytes to Packet, rule R104. -/
  | parse (buf : Bytes)
  /-- Packet to bytes, rule R110. -/
  | ser (v : Packet)
  /-- Load the key from a byte string, rule R124. -/
  | keyb (k : Bytes)
  /-- Load the key from a number, rule R125. -/
  | keyn (n : Nat)
  /-- Checksum of a byte string, rule R126. -/
  | csum (b : Bytes)
  /-- Verify a frame's checksum byte, rule R127. -/
  | cver (f : Bytes)
  /-- The SYN factory, rule R150. -/
  | mksyn (localCh remoteCh : Byte)
  /-- The CONNECT factory, rule R151. -/
  | mkcon (localCh remoteCh : Byte) (connSig pktSig : Bytes)
  /-- Ack construction, rule R140. -/
  | mkack (r : Packet) (opts : AckOptions)
  /-- Is the window full, rule R160. -/
  | wfull
  /-- Add an entry, rule R163. -/
  | wadd (v : Packet) (timer : Option Nat)
  /-- Acknowledge an entry, rule R165. -/
  | wack (p : Packet)
  /-- Membership test, rule R167. -/
  | wwait (q : SeqId)
  /-- Re-time an entry, rule R168. -/
  | wretime (q : SeqId) (timer : Option Nat)
  /-- Empty the window, rule R170. -/
  | wclear
  /-- The send path, rule R180. -/
  | send (v : Packet)
  /-- The event TICK, rule R190. -/
  | tick
  /-- The event FIRE of the entry at sequence id `q`, rule R192. -/
  | fire (q : SeqId)
  deriving DecidableEq, Repr

/-- The operands that stand on the port beside an 8-bit code: one lane per operand type of rule R83, passed by value as typed values
(rule R77). A command reads the lanes of its own operands and no other (log entry 12). -/
structure Operands where
  /-- `buf`, `k`, `B`, `frame`. -/
  bytes : Bytes
  /-- `n` of KEYN. -/
  number : Nat
  /-- `v`, `r`, `p`. -/
  packet : Packet
  /-- `local` of MKSYN and MKCON. -/
  localCh : Byte
  /-- `remote` of MKSYN and MKCON. -/
  remoteCh : Byte
  /-- `connSig` of MKCON. -/
  connSig : Bytes
  /-- `pktSig` of MKCON. -/
  pktSig : Bytes
  /-- `opts` of MKACK. -/
  opts : AckOptions
  /-- `seq` of WWAIT, WRETIME and FIRE. -/
  seq : SeqId
  /-- `timer` of WADD and WRETIME. -/
  timer : Option Nat
  deriving DecidableEq, Repr

/-- What the decoder reads: an 8-bit code of rule R83 with its operands, or a 16-bit type+flags word of rule R84 with what its row is
applied to. -/
inductive Request where
  | coded (code : Byte) (ops : Operands)
  | format (tf : BitVec 16) (use : FormatUse)
  deriving DecidableEq, Repr

/-- One element of the serial order of rule R62: a request (a host command, a clock pulse, the block's own FIRE), or the assertion of
the RESET input, which is no command and has no code (rule R230). -/
inductive Input where
  | request (r : Request)
  | reset
  deriving DecidableEq, Repr

end Sys2Proof
end

