-- ==== Sys2Proof/WellFormed.lean ====
section
/-! DEFINITION. Which instructions can stand on the port: the widths of the operands are their types; what is left to check is that a
byte-string operand that is a frame fits the frame buffer (spec/20_memory.md rule R50, and the operand lines of rules R100, R104,
R126, R127). -/

namespace Sys2Proof

/-- The frame that `FormatUse.parse` presents fits the buffer: two channel bytes, the type+flags word, and the rest (rule R50). -/
def FormatUse.fits (c : Cfg) : FormatUse → Bool
  | .parse _ _ rest => decide (rest.length + 4 ≤ c.maxFrame)
  | .serialise _ => true

/-- The operand lengths of an instruction are within the bounds of its rule. `CSUM` takes the bytes without a checksum byte, so one
byte fewer (rule R126). The byte strings of KEYB, MKCON and MKACK and the payload of a Packet have any length (rules R20, R124, R140, R151). -/
def Instr.wf (c : Cfg) : Instr → Bool
  | .syn _ use => use.fits c
  | .connect _ use => use.fits c
  | .data _ use => use.fits c
  | .disconnect _ use => use.fits c
  | .ping _ use => use.fits c
  | .vdet buf => decide (buf.length ≤ c.maxFrame)
  | .parse buf => decide (buf.length ≤ c.maxFrame)
  | .ser _ => true
  | .keyb _ => true
  | .keyn _ => true
  | .csum b => decide (b.length + 1 ≤ c.maxFrame)
  | .cver f => decide (f.length ≤ c.maxFrame)
  | .mksyn _ _ => true
  | .mkcon _ _ _ _ => true
  | .mkack _ _ => true
  | .wfull => true
  | .wadd _ _ => true
  | .wack _ => true
  | .wwait _ => true
  | .wretime _ _ => true
  | .wclear => true
  | .send _ => true
  | .tick => true
  | .fire _ => true

end Sys2Proof
end

