-- ==== Sys2Proof/Decode.lean ====
section
/-! DEFINITION. The type+flags word (spec/30_encoding.md rule R79), the decoder of the opcode map (rules R83, R84), total on every
request and rejecting by name, and the encoder written from the same tables. The wire format of a frame (rules R70 to R75) is read and
written by the meanings of PARSE and SER, in Sys2Proof/Machine/Wire.lean. -/

namespace Sys2Proof

/-- `tf[3:0]`: the type of a type+flags word (rule R79). -/
def tfType (tf : BitVec 16) : TypeCode := tf.extractLsb' 0 4

/-- `tf[15:4]`: the flags of a type+flags word (rule R79). -/
def tfFlags (tf : BitVec 16) : FlagSet := tf.extractLsb' 4 12

/-- `tf = (flags << 4) | type` (rule R79): both fields are zero-extended. -/
def typeFlagsWord (flags : FlagSet) (type : TypeCode) : BitVec 16 := flags.setWidth 16 <<< 4 ||| type.setWidth 16

/-- `DEFAULT(ver)` (rule R21). -/
def defaultPacket (ver : Byte) : Packet where
  version := ver
  src := 0
  dst := 0
  type := 0
  flags := 0
  sessionId := 0
  pktSig := [0, 0, 0, 0]
  seq := 0
  fragId := 0
  connSig := [0, 0, 0, 0]
  payload := []
  checksum := 0

/-- Operand lanes at zero: no bytes, the number 0, the default packet, no options, no timer. -/
def zeroOperands : Operands where
  bytes := []
  number := 0
  packet := defaultPacket 0
  localCh := 0
  remoteCh := 0
  connSig := []
  pktSig := []
  opts := { sessionId := none, connSig := none, pktSig := none }
  seq := 0
  timer := none

/-- Why a request names no row of the opcode table. -/
inductive DecodeError where
  /-- A command code that rule R83 does not list (rules R89, R208). -/
  | illegalCommand (code : Byte)
  /-- A packet type that rule R84 does not name: legal on the wire, with the BARE body (rule R86), but no row of the table. -/
  | unassignedType (type : TypeCode)
  deriving DecidableEq, Repr

/-- The opcode map of rule R83: an 8-bit code and the lanes its command reads. -/
def decodeCode (code : Byte) (ops : Operands) : Except DecodeError Instr :=
  match code.toNat with
  | 0x01 => .ok (.vdet ops.bytes)
  | 0x02 => .ok (.parse ops.bytes)
  | 0x03 => .ok (.ser ops.packet)
  | 0x08 => .ok (.keyb ops.bytes)
  | 0x09 => .ok (.keyn ops.number)
  | 0x0A => .ok (.csum ops.bytes)
  | 0x0B => .ok (.cver ops.bytes)
  | 0x10 => .ok (.mksyn ops.localCh ops.remoteCh)
  | 0x11 => .ok (.mkcon ops.localCh ops.remoteCh ops.connSig ops.pktSig)
  | 0x12 => .ok (.mkack ops.packet ops.opts)
  | 0x20 => .ok .wfull
  | 0x21 => .ok (.wadd ops.packet ops.timer)
  | 0x22 => .ok (.wack ops.packet)
  | 0x23 => .ok (.wwait ops.seq)
  | 0x24 => .ok (.wretime ops.seq ops.timer)
  | 0x25 => .ok .wclear
  | 0x30 => .ok (.send ops.packet)
  | 0x40 => .ok .tick
  | 0x41 => .ok (.fire ops.seq)
  | _ => .error (.illegalCommand code)

/-- The packet types of rule R84, with the configuration's type codes (rule R7). -/
def decodeFormat (c : Cfg) (tf : BitVec 16) (use : FormatUse) : Except DecodeError Instr :=
  if tfType tf = c.tSyn then .ok (.syn (tfFlags tf) use)
  else if tfType tf = c.tConnect then .ok (.connect (tfFlags tf) use)
  else if tfType tf = c.tData then .ok (.data (tfFlags tf) use)
  else if tfType tf = c.tDisconnect then .ok (.disconnect (tfFlags tf) use)
  else if tfType tf = c.tPing then .ok (.ping (tfFlags tf) use)
  else .error (.unassignedType (tfType tf))

/-- The decoder: every request is an instruction or is rejected by name. -/
def decode (c : Cfg) : Request → Except DecodeError Instr
  | .coded code ops => decodeCode code ops
  | .format tf use => decodeFormat c tf use

/-- The encoder: the request an instruction stands on the port as, lanes it does not read at zero. -/
def encode (c : Cfg) : Instr → Request
  | .syn flags use => .format (typeFlagsWord flags c.tSyn) use
  | .connect flags use => .format (typeFlagsWord flags c.tConnect) use
  | .data flags use => .format (typeFlagsWord flags c.tData) use
  | .disconnect flags use => .format (typeFlagsWord flags c.tDisconnect) use
  | .ping flags use => .format (typeFlagsWord flags c.tPing) use
  | .vdet buf => .coded 0x01 { zeroOperands with bytes := buf }
  | .parse buf => .coded 0x02 { zeroOperands with bytes := buf }
  | .ser v => .coded 0x03 { zeroOperands with packet := v }
  | .keyb k => .coded 0x08 { zeroOperands with bytes := k }
  | .keyn n => .coded 0x09 { zeroOperands with number := n }
  | .csum b => .coded 0x0A { zeroOperands with bytes := b }
  | .cver f => .coded 0x0B { zeroOperands with bytes := f }
  | .mksyn localCh remoteCh => .coded 0x10 { zeroOperands with localCh := localCh, remoteCh := remoteCh }
  | .mkcon localCh remoteCh connSig pktSig =>
      .coded 0x11 { zeroOperands with localCh := localCh, remoteCh := remoteCh, connSig := connSig, pktSig := pktSig }
  | .mkack r opts => .coded 0x12 { zeroOperands with packet := r, opts := opts }
  | .wfull => .coded 0x20 zeroOperands
  | .wadd v timer => .coded 0x21 { zeroOperands with packet := v, timer := timer }
  | .wack p => .coded 0x22 { zeroOperands with packet := p }
  | .wwait q => .coded 0x23 { zeroOperands with seq := q }
  | .wretime q timer => .coded 0x24 { zeroOperands with seq := q, timer := timer }
  | .wclear => .coded 0x25 zeroOperands
  | .send v => .coded 0x30 { zeroOperands with packet := v }
  | .tick => .coded 0x40 zeroOperands
  | .fire q => .coded 0x41 { zeroOperands with seq := q }

/-- The bits of a request, as spec/opcode_table.json numbers them: the 8-bit code, or the 16-bit type+flags word. -/
def requestBits : Request → Nat
  | .coded code _ => code.toNat
  | .format tf _ => tf.toNat

/-- A word of the opcode table as a request: a row of at most 8 bits is a code of rule R83, a longer one a type+flags word of rule
R84; the operands, which have no bits (rule R77), are zero, and a type+flags word is applied to the empty rest of a frame. -/
def requestOfWord (nbits w : Nat) : Request :=
  if nbits ≤ 8 then .coded (BitVec.ofNat 8 w) zeroOperands
  else .format (BitVec.ofNat 16 w) (.parse 0 0 [])

/-- The instruction the decoder reads from an opcode-table word of `nbits` bits, under the straps of `State.reset`. -/
def decodeTableWord (nbits w : Nat) : Option Instr :=
  match decode Config.strapped (requestOfWord nbits w) with
  | .ok i => some i
  | .error _ => none

end Sys2Proof
end

