-- ==== Sys2Proof/Machine/State.lean ====
section
/-! DEFINITION. The state (spec/10_state.md), as plain data: the registers KEY, KEY_VALID and SEQ, the window with its timers, the TX
log, the straps, and the model's own fields for the ports. Also the results and the form of a response (spec/30_encoding.md rules
R78, R83), the kinds of statuses (spec/00_scope.md rule R13), and the reasons for which the machine stops. -/

namespace Sys2Proof.Machine

/-- The causes of `ParseError` (rule R201). -/
inductive ParseCause where
  | badLead
  | short
  | length
  deriving DecidableEq, Repr

/-- The causes of `ValidationError` (rule R202). -/
inductive ValidationCause where
  | connSigLen
  | pktSigLen
  | payloadNoSlot
  | payloadTooLong
  | frameTooLong
  deriving DecidableEq, Repr

/-- The causes of `ProtocolError` (rule R203). -/
inductive ProtocolCause where
  | unknownType
  | noSession
  deriving DecidableEq, Repr

/-- The statuses other than `OK` that a response can carry (rule R200), with their causes. -/
inductive Exception where
  | parseError (cause : ParseCause)
  | validationError (cause : ValidationCause)
  | protocolError (cause : ProtocolCause)
  | unsupportedVersion (version : Byte)
  | noKey
  | pingAckUnimplemented
  | dupSeq
  | notFound
  | illegalCommand (code : Byte)
  deriving DecidableEq, Repr

/-- SEND's disposition (rule R180). -/
inductive Disposition where
  | sent
  | dropped
  deriving DecidableEq, Repr

/-- The results of a command by value, the column "results" of rule R83. -/
inductive Result where
  /-- No result: KEYB, KEYN, WRETIME, and every response whose status is not OK. -/
  | nothing
  /-- VDET. -/
  | version (version : Byte) (tagged : Bool)
  /-- PARSE, MKSYN, MKCON. -/
  | packet (v : Packet)
  /-- SER. -/
  | frame (f : Bytes)
  /-- CSUM. -/
  | checksum (c : Byte)
  /-- The verdict of CVER, WFULL, WADD, WACK, WWAIT. -/
  | verdict (b : Bool)
  /-- MKACK. -/
  | ack (a : Option Packet)
  /-- WCLEAR. -/
  | count (n : Nat)
  /-- SEND. -/
  | sendReport (disposition : Disposition) (seq : SeqId) (frame : Bytes)
  deriving DecidableEq, Repr

/-- A response (rule R78): a status code, a cause (0 when the status has none), and the results. -/
structure Response where
  status : Byte
  cause : Byte
  result : Result
  deriving DecidableEq, Repr

/-- A window entry (rule R38). Its key is `pkt.seq`, which is not stored twice. -/
structure Entry where
  pkt : Packet
  /-- `none`: no live timer. `some t`: `t` TICKs still to run. -/
  timer : Option Nat
  deriving DecidableEq, Repr

/-- The window of rule R39, a partial map from sequence ids to entries, as the list of its entries in rising order of their keys.
A sequence id that no entry has reads as none (log entry 13). -/
abbrev Window := List Entry

/-- The canonical form of a window: keys strictly rising, so that equal windows are equal data and a key has at most one entry. -/
abbrev Window.wf (w : Window) : Prop := w.Pairwise (fun a b => a.pkt.seq.toNat < b.pkt.seq.toNat)

/-- The state of one PCRS unit. -/
structure State where
  /-- The configuration registers (rules R7, R35): strapped, never written. A parameter of every step (log entry 3). -/
  cfg : Cfg
  /-- `KEY` (rule R30). -/
  key : Byte
  /-- `KEY_VALID` (rule R31). -/
  keyValid : Bool
  /-- `SEQ` (rule R32). -/
  seq : SeqId
  /-- `W` (rule R39); `COUNT` is its length (rule R34). -/
  window : Window
  /-- The TX log, oldest frame first (rule R43). -/
  tx : List Bytes
  /-- The response port after the last step: the model's own field (rules R29, R45, R78; log entry 5). -/
  response : Option Response
  /-- How many bytes the RNG port has delivered: the model's own field (rule R44; log entry 2). -/
  rng : Nat
  /-- The inputs still to come, in their serial order: the model's own field (rules R45, R47, R62; log entry 6). -/
  sched : List Input
  deriving DecidableEq, Repr

/-- The kinds into which rule R13 sorts the statuses: one the source names and gives a meaning, or the spec's mark for a case the source
gives no meaning. The third outcome of that rule, a draw, is no status: it is a byte of `Config.rngByte`. -/
inductive StatusKind where
  | source
  | refusal
  deriving DecidableEq, Repr

/-- Why the machine stops with a fault. -/
inductive Fault where
  /-- Raised by `step` for an instruction with a byte-string operand longer than the frame buffer: rule R50 gives the buffer no offset
  at or above `MAX_FRAME` (log entry 10). Safe: nothing is proved past it. No meaning of an instruction raises it. -/
  | frameBufferOverrun
  deriving DecidableEq, Repr

/-- Why the machine refuses to run. -/
inductive Refusal where
  /-- An instruction that has no meaning yet, by its mnemonic. Safe. No arm of `exec` answers it. -/
  | notModelled (mnemonic : String)
  /-- Raised by `step` in a state whose straps break a constraint of rule R8 ("or the model refuses it") or have another value
  than the fixed one of rule R7. Safe. -/
  | invalidConfig
  deriving DecidableEq, Repr

/-- The state after power-on under the straps `c` (rules R46, R231). `KEY` is unspecified there: the model names 0 (log entry 1). The
model's own fields start empty (log entries 2, 5, 6). -/
def State.atReset (c : Cfg) : State where
  cfg := c
  key := 0
  keyValid := false
  seq := c.seqReset
  window := []
  tx := []
  response := none
  rng := 0
  sched := []

/-- The machine right after reset (rule R46), strapped as rule R7 says. -/
def State.reset : State := State.atReset Config.strapped

end Sys2Proof.Machine
end

