-- ==== Sys2Proof/Machine/Flags.lean ====
section
/-! DEFINITION. Every computation on the packet flag set (spec/10_state.md rules R22, R27; spec/44_send_and_timers.md rules R181,
R182), and the constraints on the masks and type codes (spec/00_scope.md rules R7, R8). There is no condition-code register (rule R29). -/

namespace Sys2Proof.Machine

/-- `flags & mask` is non-zero. -/
def hasFlag (flags mask : FlagSet) : Bool := flags &&& mask != 0

/-- A fresh packet: ACK clear and MULTI_ACK clear (rule R182). -/
def isFresh (c : Cfg) (flags : FlagSet) : Bool := !hasFlag flags c.fAck && !hasFlag flags c.fMultiAck

/-- A tracked packet: fresh, and NEED_ACK or RELIABLE set (rule R181). -/
def isTracked (c : Cfg) (flags : FlagSet) : Bool := isFresh c flags && hasFlag flags (c.fNeedAck ||| c.fReliable)

/-- Exactly one bit is set. -/
def isOneBit (mask : FlagSet) : Bool := mask != 0 && mask &&& (mask - 1) == 0

/-- The type codes of rule R84, in its order. -/
def typeCodes (c : Cfg) : List TypeCode := [c.tSyn, c.tConnect, c.tData, c.tDisconnect, c.tPing]

/-- The named masks of rule R27, in its order. -/
def flagMasks (c : Cfg) : List FlagSet := [c.fAck, c.fReliable, c.fNeedAck, c.fHasSize, c.fMultiAck]

/-- No value stands twice in the list. -/
def allDistinct {α : Type} [BEq α] : List α → Bool
  | [] => true
  | x :: rest => !rest.contains x && allDistinct rest

/-- The parameters to which rule R7 gives one value each, `VERSION`, `SIG_LEN` and `SEQ_RESET`, have it (log entry 3). -/
def fixedValues (c : Cfg) : Bool := c.version == Config.version && c.sigLen == Config.sigLen && c.seqReset == Config.seqReset

/-- The constraints of rule R8, with the fixed values of rule R7. That a type code is at most 15 and a mask below 0x1000 is their type. -/
def cfgValid (c : Cfg) : Bool :=
  fixedValues c
    && c.tSyn == 0 && allDistinct (typeCodes c)
    && c.fNeedAck == 0x004 && allDistinct (flagMasks c) && (flagMasks c).all isOneBit
    && c.cap != 0 && c.rtoTicks != 0 && decide (12 ≤ c.maxFrame) && c.dataAckSig.length == 4

end Sys2Proof.Machine
end

