-- ==== Sys2Proof/Machine/Operands.lean ====
section
/-! DEFINITION. The operand forms: the byte-order primitives (spec/00_scope.md rule R10), the field reads and writes of a frame
(spec/20_memory.md rules R67, R68, R69), and the layout a type and its flags select (spec/30_encoding.md rules R70 to R75). -/

namespace Sys2Proof.Machine

/-- `b[i]`. A rule checks the length before it reads (rule R69); the value past the end is never used. -/
def byteAt (b : Bytes) (i : Nat) : Byte := b.getD i 0

/-- `LE16(b, i)` (rule R10). -/
def le16At (b : Bytes) (i : Nat) : BitVec 16 := BitVec.ofNat 16 ((byteAt b i).toNat + 256 * (byteAt b (i + 1)).toNat)

/-- `LE32(b, i)` (rule R10). -/
def le32At (b : Bytes) (i : Nat) : BitVec 32 :=
  BitVec.ofNat 32 ((byteAt b i).toNat + 256 * (byteAt b (i + 1)).toNat + 65536 * (byteAt b (i + 2)).toNat
    + 16777216 * (byteAt b (i + 3)).toNat)

/-- `le16(v)` (rule R10). -/
def le16 (v : BitVec 16) : Bytes := [BitVec.ofNat 8 v.toNat, BitVec.ofNat 8 (v.toNat / 256)]

/-- `le32(v)` (rule R10). -/
def le32 (v : BitVec 32) : Bytes :=
  [BitVec.ofNat 8 v.toNat, BitVec.ofNat 8 (v.toNat / 256), BitVec.ofNat 8 (v.toNat / 65536), BitVec.ofNat 8 (v.toNat / 16777216)]

/-- The `k` bytes `b[off .. off+k-1]` (rule R67). -/
def slice (b : Bytes) (off k : Nat) : Bytes := (b.drop off).take k

/-- The body formats of rule R72. -/
inductive BodyFormat where
  | sig
  | frag
  | bare
  deriving DecidableEq, Repr

/-- The tail options of rule R73. -/
inductive TailOption where
  | size
  | rest
  | nothing
  deriving DecidableEq, Repr

/-- The body format a type selects (rules R72, R86). -/
def bodyFormat (c : Cfg) (type : TypeCode) : BodyFormat :=
  if type = c.tSyn ∨ type = c.tConnect then .sig
  else if type = c.tData then .frag
  else .bare

/-- The tail option the flags select, given the body format: `FRAG` is the format of DATA and of no other type (rules R72, R73). HAS_SIZE
wins over the inferred length. -/
def tailOption (c : Cfg) (body : BodyFormat) (flags : FlagSet) : TailOption :=
  if hasFlag flags c.fHasSize then .size
  else if body = .frag ∧ hasFlag flags c.fAck = false then .rest
  else .nothing

/-- The bytes of the body before the tail (rule R74). -/
def bodyLength : BodyFormat → Nat
  | .sig => 4
  | .frag => 1
  | .bare => 0

/-- The bytes of the tail with a payload of `len` bytes (rule R75). -/
def tailLength (len : Nat) : TailOption → Nat
  | .size => 2 + len
  | .rest => len
  | .nothing => 0

/-- The frame length `n` of rule R74, the checksum byte included. -/
def frameLength (c : Cfg) (v : Packet) : Nat :=
  11 + bodyLength (bodyFormat c v.type) + tailLength v.payload.length (tailOption c (bodyFormat c v.type) v.flags) + 1

/-- The canonical form of rule R22: a field that means nothing has its default of rule R21. -/
def canon (c : Cfg) (v : Packet) : Packet :=
  { v with
    fragId := if bodyFormat c v.type = .frag then v.fragId else 0
    connSig := if bodyFormat c v.type = .sig then v.connSig else [0, 0, 0, 0]
    payload := if tailOption c (bodyFormat c v.type) v.flags = .nothing then [] else v.payload }

end Sys2Proof.Machine
end

