-- ==== Sys2Proof/Machine/Ops.lean ====
section
/-! DEFINITION. The named operations on the state: the window's reads and writes (spec/10_state.md rules R34, R38, R39), the ports
(rule R45), the RESET input (spec/70_reset_and_hazards.md rule R230), and taking an exception, with the normal end of a command beside it
(spec/60_exceptions.md rules R200, R216, R219). -/

namespace Sys2Proof.Machine

/-- The answer of a meaning or a step. -/
abbrev Answer := Host.Outcome State Fault Refusal

/-! The window. -/

/-- `W[q]` (rule R39). -/
def lookup (w : Window) (q : SeqId) : Option Entry := w.find? (fun e => e.pkt.seq == q)

/-- `W[e.pkt.seq] <- e`, in the place that keeps the keys rising. -/
def put (w : Window) (e : Entry) : Window :=
  match w with
  | [] => [e]
  | x :: rest =>
    if e.pkt.seq.toNat < x.pkt.seq.toNat then e :: x :: rest
    else if e.pkt.seq = x.pkt.seq then e :: rest
    else x :: put rest e

/-- `W[q] <- none`. -/
def remove (w : Window) (q : SeqId) : Window := w.filter (fun e => e.pkt.seq != q)

/-- `W[q].timer <- timer`; nothing where `q` has no entry. -/
def retime (w : Window) (q : SeqId) (timer : Option Nat) : Window :=
  w.map (fun e => if e.pkt.seq = q then { e with timer := timer } else e)

/-- The timer is `some 0` (rule R38). -/
def isExpired (e : Entry) : Bool := e.timer == some 0

/-- One TICK of one entry: a live timer of at least 1 counts down, any other is untouched (rule R190). -/
def tickEntry (e : Entry) : Entry :=
  match e.timer with
  | some (t + 1) => { e with timer := some t }
  | _ => e

/-- `COUNT`, the number of keys of `W` (rule R34). -/
def count (s : State) : Nat := s.window.length

/-- `COUNT = CAP`, the test of WFULL, WADD and SEND (rules R160, R163, R180). -/
def isFull (s : State) : Bool := count s == s.cfg.cap

/-! The ports. -/

/-- `emit TX(f)` (rule R11): the port accepts every frame, and the log gets it last. -/
def emit (s : State) (f : Bytes) : State := { s with tx := s.tx ++ [f] }

/-- `draw rand(n)` (rule R11): the next `n` bytes of the RNG port. -/
def drawn (s : State) (n : Nat) : Bytes := (List.range n).map (fun i => Config.rngByte (s.rng + i))

/-- The RNG port has delivered `n` more bytes. -/
def afterDraw (s : State) (n : Nat) : State := { s with rng := s.rng + n }

/-- Write the window. -/
def setWindow (s : State) (w : Window) : State := { s with window := w }

/-- Write `SEQ`. -/
def setSeq (s : State) (q : SeqId) : State := { s with seq := q }

/-- Load `KEY` and set `KEY_VALID` (rules R30, R31). -/
def loadKey (s : State) (k : Byte) : State := { s with key := k, keyValid := true }

/-- Put a response on the response port. -/
def respond (s : State) (r : Response) : State := { s with response := some r }

/-- The step gives the host no response: an event (rule R211). -/
def silent (s : State) : State := { s with response := none }

/-! Exceptions and the normal end of a command. -/

/-- The status code of rule R200. -/
def statusCode : Exception → Byte
  | .parseError _ => 0x01
  | .validationError _ => 0x02
  | .protocolError _ => 0x03
  | .unsupportedVersion _ => 0x10
  | .noKey => 0x11
  | .pingAckUnimplemented => 0x12
  | .dupSeq => 0x13
  | .notFound => 0x14
  | .illegalCommand _ => 0x1F

/-- The column "kind" of rule R200; none for a code that table does not list. -/
def statusKind (code : Byte) : Option StatusKind :=
  if code ∈ ([0x00, 0x01, 0x02, 0x03] : List Byte) then some .source
  else if code ∈ ([0x10, 0x11, 0x12, 0x13, 0x14, 0x1F] : List Byte) then some .refusal
  else none

/-- The cause field of rule R200. -/
def statusCause : Exception → Byte
  | .parseError .badLead => 1
  | .parseError .short => 2
  | .parseError .length => 3
  | .validationError .connSigLen => 1
  | .validationError .pktSigLen => 2
  | .validationError .payloadNoSlot => 3
  | .validationError .payloadTooLong => 4
  | .validationError .frameTooLong => 5
  | .protocolError .unknownType => 1
  | .protocolError .noSession => 2
  | .unsupportedVersion v => v
  | .noKey => 0
  | .pingAckUnimplemented => 0
  | .dupSeq => 0
  | .notFound => 0
  | .illegalCommand code => code

/-- The response of an exception: its code and cause, and no result. -/
def exceptionResponse (x : Exception) : Response where
  status := statusCode x
  cause := statusCause x
  result := .nothing

/-- The response of a command that ends with `OK`. -/
def okResponse (r : Result) : Response where
  status := 0x00
  cause := 0
  result := r

/-- TAKING AN EXCEPTION (rules R11, R216, R217): the command ends at once, the status and its cause go to the response port, nothing
else of the state changes, nothing is saved and nothing is entered. The next command is taken from this state, also after a status the spec calls
a refusal (log entry 9); there is no return instruction (rule R219). -/
def raise (x : Exception) (s : State) : Answer := .next (respond s (exceptionResponse x))

/-- The normal end of a command: status OK and the results. -/
def done (r : Result) (s : State) : Answer := .next (respond s (okResponse r))

/-- End a command that changes nothing but the response port. -/
def answer (r : Except Exception Result) (s : State) : Answer :=
  match r with
  | .error x => raise x s
  | .ok res => done res s

/-- The RESET input (rules R230, R231, R233): every field at its reset value. The straps stay (rule R231); what the RNG port has delivered
and the inputs still to come are outside the block. -/
def resetInput (s : State) : State := { State.atReset s.cfg with rng := s.rng, sched := s.sched }

end Sys2Proof.Machine
end

