-- ==== Sys2Proof/Machine/Checksum.lean ====
section
/-! DEFINITION. The checksum function and the meanings of KEYB, KEYN, CSUM, CVER (spec/41_checksum.md). -/

namespace Sys2Proof.Machine

/-- `S` of rule R120: the sum modulo 2^32 of the complete 4-byte little-endian words of `b`. -/
def wordSum (b : Bytes) : BitVec 32 := (List.range (b.length / 4)).foldl (fun acc i => acc + le32At b (4 * i)) 0

/-- The plain sum of the bytes of a string: it cannot wrap. -/
def byteSum (b : Bytes) : Nat := (b.map BitVec.toNat).sum

/-- `R` of rule R120: the sum of the 0 to 3 bytes after the last complete word. -/
def remainderSum (b : Bytes) : Nat := byteSum (b.drop (4 * (b.length / 4)))

/-- `C` of rule R120: `S[7:0] + S[15:8] + S[23:16] + S[31:24]`, the sum of the four bytes of `le32(S)`. -/
def laneSum (w : BitVec 32) : Nat := byteSum (le32 w)

/-- `CS(b, k)` of rule R120: one reduction modulo 256, at the end (rule R121). -/
def checksum (b : Bytes) (k : Byte) : Byte := BitVec.ofNat 8 (k.toNat + remainderSum b + laneSum (wordSum b))

/-- KEYB (rule R124): the sum of the bytes modulo 256. -/
def execKeyb (k : Bytes) (s : State) : Answer := done .nothing (loadKey s (BitVec.ofNat 8 (byteSum k)))

/-- KEYN (rule R125): the number modulo 256. -/
def execKeyn (n : Nat) (s : State) : Answer := done .nothing (loadKey s (BitVec.ofNat 8 n))

/-- CSUM (rule R126). -/
def execCsum (b : Bytes) (s : State) : Answer :=
  if s.keyValid then done (.checksum (checksum b s.key)) s else raise .noKey s

/-- CVER (rule R127): a failed verification is a result, not an exception. -/
def execCver (f : Bytes) (s : State) : Answer :=
  if s.keyValid = false then raise .noKey s
  else if f.length = 0 then raise (.parseError .short) s
  else done (.verdict (checksum (slice f 0 (f.length - 1)) s.key == byteAt f (f.length - 1))) s

end Sys2Proof.Machine
end

