-- ==== Sys2Proof/Machine/Wire.lean ====
section
/-! DEFINITION. The version-0 wire format and the meanings of VDET, PARSE and SER (spec/40_codec_wire.md). -/

namespace Sys2Proof.Machine

/-- A channel of a version-0 frame: 0xA0..0xAF (rules R88, R100). -/
def isChannel (b : Byte) : Bool := decide (0xA0 ≤ b.toNat) && decide (b.toNat ≤ 0xAF)

/-- Version detection (rule R100): the version and whether it was tagged. -/
def detectVersion (buf : Bytes) : Except Exception (Byte × Bool) :=
  if buf.length < 2 then .error (.parseError .short)
  else if isChannel (byteAt buf 0) && isChannel (byteAt buf 1) then .ok (Config.version, false)
  else if byteAt buf 0 = 0xEA ∧ byteAt buf 1 = 0xD0 then
    if buf.length < 3 then .error (.parseError .short) else .ok (byteAt buf 2, true)
  else .error (.parseError .badLead)

/-- What PARSE checks before it reads a field (rule R104): the version, then the 12 bytes of the shortest frame. -/
def checkLead (buf : Bytes) : Except Exception Unit :=
  match detectVersion buf with
  | .error x => .error x
  | .ok (ver, tagged) =>
    if tagged then .error (.unsupportedVersion ver)
    else if buf.length < 12 then .error (.parseError .short)
    else .ok ()

/-- The common header (rules R71, R104): the first 11 bytes. -/
def readHeader (buf : Bytes) : Packet :=
  { defaultPacket Config.version with
    src := byteAt buf 0
    dst := byteAt buf 1
    type := tfType (le16At buf 2)
    flags := tfFlags (le16At buf 2)
    sessionId := byteAt buf 4
    pktSig := slice buf 5 4
    seq := le16At buf 9 }

/-- `need k` at the cursor `off` (rules R69, R104): the last byte is the checksum and belongs to no other field. -/
def lacks (buf : Bytes) (off k : Nat) : Bool := decide (buf.length - 1 < off + k)

/-- The body the format selects (rules R72, R104): the packet so far and the cursor after it. -/
def readBody (body : BodyFormat) (buf : Bytes) (v : Packet) : Except Exception (Packet × Nat) :=
  match body with
  | .sig =>
    if lacks buf 11 4 then .error (.parseError .short) else .ok ({ v with connSig := slice buf 11 4 }, 15)
  | .frag =>
    if lacks buf 11 1 then .error (.parseError .short) else .ok ({ v with fragId := byteAt buf 11 }, 12)
  | .bare => .ok (v, 11)

/-- The tail the option selects (rules R73, R80, R81, R104): the packet so far and the cursor after it. -/
def readTail (tail : TailOption) (buf : Bytes) (v : Packet) (off : Nat) : Except Exception (Packet × Nat) :=
  match tail with
  | .size =>
    if lacks buf off 2 then .error (.parseError .short)
    else if lacks buf (off + 2) (le16At buf off).toNat then .error (.parseError .short)
    else .ok ({ v with payload := slice buf (off + 2) (le16At buf off).toNat }, off + 2 + (le16At buf off).toNat)
  | .rest => .ok ({ v with payload := slice buf off (buf.length - 1 - off) }, buf.length - 1)
  | .nothing => .ok (v, off)

/-- Read a frame whose lead is checked by a given body format and tail option (rule R104). -/
def readFields (body : BodyFormat) (tail : TailOption) (buf : Bytes) : Except Exception Packet :=
  match readBody body buf (readHeader buf) with
  | .error x => .error x
  | .ok (v, off) =>
    match readTail tail buf v off with
    | .error x => .error x
    | .ok (u, last) =>
      if last ≠ buf.length - 1 then .error (.parseError .length)
      else .ok { u with checksum := byteAt buf (buf.length - 1) }

/-- Read a frame by a given body format, with the tail its flags select. -/
def parseAs (c : Cfg) (body : BodyFormat) (buf : Bytes) : Except Exception Packet :=
  match checkLead buf with
  | .error x => .error x
  | .ok () => readFields body (tailOption c body (tfFlags (le16At buf 2))) buf

/-- PARSE as a function of the bytes (rule R104): the type in the frame selects the body format. -/
def parseFrame (c : Cfg) (buf : Bytes) : Except Exception Packet := parseAs c (bodyFormat c (tfType (le16At buf 2))) buf

/-- The bytes of the body (rule R110). -/
def bodyBytes (body : BodyFormat) (v : Packet) : Bytes :=
  match body with
  | .sig => v.connSig
  | .frag => [v.fragId]
  | .bare => []

/-- The bytes of the tail (rules R68, R80, R110). -/
def tailBytes (tail : TailOption) (v : Packet) : Bytes :=
  match tail with
  | .size => le16 (BitVec.ofNat 16 v.payload.length) ++ v.payload
  | .rest => v.payload
  | .nothing => []

/-- The bytes of the common header (rules R68, R71, R110). -/
def headerBytes (v : Packet) : Bytes :=
  [v.src, v.dst] ++ le16 (typeFlagsWord v.flags v.type) ++ [v.sessionId] ++ v.pktSig ++ le16 v.seq

/-- `ENC(v)` (rule R110). -/
def encodePacket (c : Cfg) (v : Packet) : Bytes :=
  headerBytes v ++ bodyBytes (bodyFormat c v.type) v ++ tailBytes (tailOption c (bodyFormat c v.type) v.flags) v

/-- `ENC(v) ++ [CS(ENC(v), key)]`: the frame of one transmission, with the key of that moment (rules R110, R186). -/
def frameOf (c : Cfg) (key : Byte) (v : Packet) : Bytes := encodePacket c v ++ [checksum (encodePacket c v) key]

/-- Checks 3 to 7 of rule R109, in its order: the cause of the first that fails. -/
def fieldFault (c : Cfg) (v : Packet) : Option ValidationCause :=
  if v.pktSig.length ≠ Config.sigLen then some .pktSigLen
  else if bodyFormat c v.type = .sig ∧ v.connSig.length ≠ Config.sigLen then some .connSigLen
  else if tailOption c (bodyFormat c v.type) v.flags = .nothing ∧ v.payload.length ≠ 0 then some .payloadNoSlot
  else if tailOption c (bodyFormat c v.type) v.flags = .size ∧ 65535 < v.payload.length then some .payloadTooLong
  else if c.maxFrame < frameLength c v then some .frameTooLong
  else none

/-- `serialisable(v)` of rule R109: check 1 and checks 3 to 7. -/
def isSerialisable (c : Cfg) (v : Packet) : Bool := v.version == Config.version && fieldFault c v == none

/-- The admission checks of rule R109, in its order, as SER, WADD and SEND make them: the exception of the first that fails. -/
def admissionFault (s : State) (v : Packet) : Option Exception :=
  if v.version ≠ Config.version then some (.unsupportedVersion v.version)
  else if s.keyValid = false then some .noKey
  else (fieldFault s.cfg v).map .validationError

/-- SER as a function of the state and the packet (rule R110). -/
def serialise (s : State) (v : Packet) : Except Exception Result :=
  match admissionFault s v with
  | some x => .error x
  | none => .ok (.frame (frameOf s.cfg s.key v))

/-- VDET (rule R100). -/
def execVdet (buf : Bytes) (s : State) : Answer :=
  answer ((detectVersion buf).map (fun p => .version p.1 p.2)) s

/-- PARSE (rule R104). -/
def execParse (buf : Bytes) (s : State) : Answer := answer ((parseFrame s.cfg buf).map .packet) s

/-- SER (rule R110). -/
def execSer (v : Packet) (s : State) : Answer := answer (serialise s v) s

end Sys2Proof.Machine
end

