-- ==== Sys2Proof/Machine/PacketTypes.lean ====
section
/-! DEFINITION. The packet-type rows of the opcode table (spec/30_encoding.md rules R72, R73, R84, R86): a type selects the layout by which
a frame is parsed (spec/40_codec_wire.md rule R104) and a packet serialised (rule R110), and that is what a row runs (log entry 7). -/

namespace Sys2Proof.Machine

/-- The frame a row parses: two channel bytes, the row's type+flags word, and the bytes after it (rule R70). -/
def rowFrame (type : TypeCode) (flags : FlagSet) (src dst : Byte) (rest : Bytes) : Bytes :=
  [src, dst] ++ le16 (typeFlagsWord flags type) ++ rest

/-- Apply a row: the layout `body` to a frame with this type and these flags, or SER to a packet with them. -/
def applyFormat (type : TypeCode) (body : BodyFormat) (flags : FlagSet) (use : FormatUse) (s : State) : Answer :=
  match use with
  | .parse src dst rest => answer ((parseAs s.cfg body (rowFrame type flags src dst rest)).map .packet) s
  | .serialise v => answer (serialise s { v with type := type, flags := flags }) s

/-- SYN: type code `T_SYN`, body format SIG (rule R84). -/
def execSyn (flags : FlagSet) (use : FormatUse) (s : State) : Answer := applyFormat s.cfg.tSyn .sig flags use s

/-- CONNECT: type code `T_CONNECT`, body format SIG (rule R84). -/
def execConnect (flags : FlagSet) (use : FormatUse) (s : State) : Answer := applyFormat s.cfg.tConnect .sig flags use s

/-- DATA: type code `T_DATA`, body format FRAG (rule R84). -/
def execData (flags : FlagSet) (use : FormatUse) (s : State) : Answer := applyFormat s.cfg.tData .frag flags use s

/-- DISCONNECT: type code `T_DISCONNECT`, body format BARE (rule R84). -/
def execDisconnect (flags : FlagSet) (use : FormatUse) (s : State) : Answer := applyFormat s.cfg.tDisconnect .bare flags use s

/-- PING: type code `T_PING`, body format BARE (rule R84). -/
def execPing (flags : FlagSet) (use : FormatUse) (s : State) : Answer := applyFormat s.cfg.tPing .bare flags use s

/-- A type value with no row: legal on the wire, with the BARE body (rule R86). -/
def execUnassignedType (type : TypeCode) (flags : FlagSet) (use : FormatUse) (s : State) : Answer :=
  applyFormat type .bare flags use s

end Sys2Proof.Machine
end

