-- ==== Sys2Proof/Machine/Factories.lean ====
section
/-! DEFINITION. Ack construction and the factories: the meanings of MKACK, MKSYN, MKCON (spec/42_factories.md). They transmit nothing
and change no register. -/

namespace Sys2Proof.Machine

/-- The packet of MKSYN (rule R150). -/
def synPacket (c : Cfg) (localCh remoteCh : Byte) : Packet :=
  { defaultPacket 0 with src := localCh, dst := remoteCh, type := c.tSyn, flags := c.fNeedAck }

/-- The packet of MKCON (rule R151). -/
def connectPacket (c : Cfg) (localCh remoteCh : Byte) (connSig pktSig : Bytes) : Packet :=
  { defaultPacket 0 with
    src := localCh, dst := remoteCh, type := c.tConnect, flags := c.fNeedAck ||| c.fReliable, seq := 1
    connSig := connSig, pktSig := pktSig }

/-- What every ack has (rules R140, R144): swapped channels, the type and sequence id of `r`, the flag ACK, and defaults. -/
def ackBase (c : Cfg) (r : Packet) (opts : AckOptions) : Packet :=
  { defaultPacket r.version with
    src := r.dst, dst := r.src, type := r.type, flags := c.fAck, seq := r.seq, sessionId := opts.sessionId.getD 0 }

/-- A signature supplied, of the right length or refused, or else four drawn bytes (rule R146). The flag says whether it was drawn. -/
def signatureOr (supplied : Option Bytes) (cause : ValidationCause) (fresh : Bytes) : Except Exception (Bytes × Bool) :=
  match supplied with
  | some g => if g.length ≠ Config.sigLen then .error (.validationError cause) else .ok (g, false)
  | none => .ok (fresh, true)

/-- The ack of a packet whose earlier tests are passed, by type (rules R140, R145, R147). The flag says whether bytes were drawn. -/
def ackByType (c : Cfg) (r : Packet) (opts : AckOptions) (fresh : Bytes) : Except Exception (Packet × Bool) :=
  if r.type = c.tSyn then
    (signatureOr opts.connSig .connSigLen fresh).map (fun p =>
      ({ ackBase c r opts with flags := c.fAck ||| c.fHasSize, connSig := p.1 }, p.2))
  else if r.type = c.tConnect then
    (signatureOr opts.pktSig .pktSigLen fresh).map (fun p =>
      ({ ackBase c r opts with flags := c.fAck ||| c.fHasSize, pktSig := p.1 }, p.2))
  else if r.type = c.tData then
    .ok ({ ackBase c r opts with flags := c.fAck ||| c.fHasSize, pktSig := c.dataAckSig }, false)
  else if r.type = c.tDisconnect then .ok (ackBase c r opts, false)
  else .error .pingAckUnimplemented

/-- MKACK as a function (rules R140 to R148): `none` without NEED_ACK, before every other test; then version, type and session id. -/
def buildAck (c : Cfg) (r : Packet) (opts : AckOptions) (fresh : Bytes) : Except Exception (Option (Packet × Bool)) :=
  if hasFlag r.flags c.fNeedAck = false then .ok none
  else if r.version ≠ Config.version then .error (.unsupportedVersion r.version)
  else if r.type ∉ typeCodes c then .error (.protocolError .unknownType)
  else if r.type ≠ c.tSyn ∧ opts.sessionId = none then .error (.protocolError .noSession)
  else (ackByType c r opts fresh).map some

/-- MKSYN (rule R150): it never fails and does not check the channels. -/
def execMksyn (localCh remoteCh : Byte) (s : State) : Answer := done (.packet (synPacket s.cfg localCh remoteCh)) s

/-- MKCON (rule R151): the connection signature is tested first. -/
def execMkcon (localCh remoteCh : Byte) (connSig pktSig : Bytes) (s : State) : Answer :=
  if connSig.length ≠ Config.sigLen then raise (.validationError .connSigLen) s
  else if pktSig.length ≠ Config.sigLen then raise (.validationError .pktSigLen) s
  else done (.packet (connectPacket s.cfg localCh remoteCh connSig pktSig)) s

/-- MKACK (rule R140): the RNG port is read when a signature is generated, and only then. -/
def execMkack (r : Packet) (opts : AckOptions) (s : State) : Answer :=
  match buildAck s.cfg r opts (drawn s Config.sigLen) with
  | .error x => raise x s
  | .ok none => done (.ack none) s
  | .ok (some (a, true)) => done (.ack (some a)) (afterDraw s Config.sigLen)
  | .ok (some (a, false)) => done (.ack (some a)) s

end Sys2Proof.Machine
end

