-- ==== Sys2Proof/Machine/WindowCommands.lean ====
section
/-! DEFINITION. The congestion window: the meanings of WFULL, WADD, WACK, WWAIT, WRETIME, WCLEAR (spec/43_window.md). -/

namespace Sys2Proof.Machine

/-- WFULL (rule R160). -/
def execWfull (s : State) : Answer := done (.verdict (isFull s)) s

/-- WADD (rule R163): full is `false` before every other test; the packet's flags are not looked at. -/
def execWadd (v : Packet) (timer : Option Nat) (s : State) : Answer :=
  if isFull s then done (.verdict false) s
  else match admissionFault s v with
    | some x => raise x s
    | none =>
      if (lookup s.window v.seq).isSome then raise .dupSeq s
      else done (.verdict true) (setWindow s (put s.window { pkt := v, timer := timer }))

/-- WACK (rule R165): only `p.seq` is read; the entry and its timer go together. -/
def execWack (p : Packet) (s : State) : Answer :=
  if (lookup s.window p.seq).isSome then done (.verdict true) (setWindow s (remove s.window p.seq))
  else done (.verdict false) s

/-- WWAIT (rule R167). -/
def execWwait (q : SeqId) (s : State) : Answer := done (.verdict (lookup s.window q).isSome) s

/-- WRETIME (rule R168). -/
def execWretime (q : SeqId) (timer : Option Nat) (s : State) : Answer :=
  if (lookup s.window q).isSome then done .nothing (setWindow s (retime s.window q timer))
  else raise .notFound s

/-- WCLEAR (rule R170). -/
def execWclear (s : State) : Answer := done (.count (count s)) (setWindow s [])

end Sys2Proof.Machine
end

