-- ==== Sys2Proof/Machine/Send.lean ====
section
/-! DEFINITION. The send path and the retransmit timers: the meanings of SEND, TICK, FIRE (spec/44_send_and_timers.md). -/

namespace Sys2Proof.Machine

/-- The packet SEND transmits: a fresh one gets `SEQ`, any other keeps its own sequence id (rule R182). -/
def assigned (s : State) (v : Packet) : Packet := if isFresh s.cfg v.flags then { v with seq := s.seq } else v

/-- A full window drops this send (rules R184, R185). -/
def isDropped (s : State) (v : Packet) : Bool := isFull s && (isTracked s.cfg v.flags || s.cfg.fullDropsUntracked)

/-- `SEQ` after SEND has transmitted: advanced modulo 65536 for a fresh packet (rules R33, R182). -/
def nextSeq (s : State) (v : Packet) : SeqId := if isFresh s.cfg v.flags then s.seq + 1 else s.seq

/-- The window after SEND has transmitted `u`: a tracked packet is registered with its timer armed (rules R181, R183). -/
def registered (s : State) (u : Packet) : Window :=
  if isTracked s.cfg u.flags then put s.window { pkt := u, timer := some s.cfg.rtoTicks } else s.window

/-- What SEND does once nothing can fail (rule R180, from "commit" on). -/
def transmit (v u : Packet) (s : State) : State :=
  setWindow (emit (setSeq s (nextSeq s v)) (frameOf s.cfg s.key u)) (registered s u)

/-- SEND (rule R180): the drop, then the admission checks on the packet with its sequence id, then the presence test, then the commit. -/
def execSend (v : Packet) (s : State) : Answer :=
  if isDropped s v then done (.sendReport .dropped v.seq []) s
  else match admissionFault s (assigned s v) with
    | some x => raise x s
    | none =>
      if isTracked s.cfg v.flags && (lookup s.window (assigned s v).seq).isSome then raise .dupSeq s
      else done (.sendReport .sent (assigned s v).seq (frameOf s.cfg s.key (assigned s v))) (transmit v (assigned s v) s)

/-- TICK is enabled: no entry is expired (rule R191). -/
def tickEnabled (s : State) : Bool := !s.window.any isExpired

/-- TICK (rule R190). While it is not enabled it is held back: nothing happens (rule R191; log entry 8). -/
def execTick (s : State) : Answer :=
  if tickEnabled s then .next (silent (setWindow s (s.window.map tickEntry))) else .next (silent s)

/-- FIRE (rule R192): the stored packet is serialised now, with the key of now, and the timer re-armed. While it is not enabled nothing
happens (log entry 8). -/
def execFire (q : SeqId) (s : State) : Answer :=
  match lookup s.window q with
  | none => .next (silent s)
  | some e =>
    if isExpired e then
      .next (silent (setWindow (emit s (frameOf s.cfg s.key e.pkt)) (retime s.window q (some s.cfg.rtoTicks))))
    else .next (silent s)

end Sys2Proof.Machine
end

