-- ==== Sys2Proof/Machine/Dispatch.lean ====
section
/-! DEFINITION. One arm per constructor of Instr, each one direct call of its meaning. -/

namespace Sys2Proof.Machine

def exec (i : Instr) (s : State) : Host.Outcome State Fault Refusal :=
  match i with
  | .syn flags use => Sys2Proof.Machine.execSyn flags use s
  | .connect flags use => Sys2Proof.Machine.execConnect flags use s
  | .data flags use => Sys2Proof.Machine.execData flags use s
  | .disconnect flags use => Sys2Proof.Machine.execDisconnect flags use s
  | .ping flags use => Sys2Proof.Machine.execPing flags use s
  | .vdet buf => Sys2Proof.Machine.execVdet buf s
  | .parse buf => Sys2Proof.Machine.execParse buf s
  | .ser v => Sys2Proof.Machine.execSer v s
  | .keyb k => Sys2Proof.Machine.execKeyb k s
  | .keyn n => Sys2Proof.Machine.execKeyn n s
  | .csum b => Sys2Proof.Machine.execCsum b s
  | .cver f => Sys2Proof.Machine.execCver f s
  | .mksyn localCh remoteCh => Sys2Proof.Machine.execMksyn localCh remoteCh s
  | .mkcon localCh remoteCh connSig pktSig => Sys2Proof.Machine.execMkcon localCh remoteCh connSig pktSig s
  | .mkack r opts => Sys2Proof.Machine.execMkack r opts s
  | .wfull => Sys2Proof.Machine.execWfull s
  | .wadd v timer => Sys2Proof.Machine.execWadd v timer s
  | .wack p => Sys2Proof.Machine.execWack p s
  | .wwait q => Sys2Proof.Machine.execWwait q s
  | .wretime q timer => Sys2Proof.Machine.execWretime q timer s
  | .wclear => Sys2Proof.Machine.execWclear s
  | .send v => Sys2Proof.Machine.execSend v s
  | .tick => Sys2Proof.Machine.execTick s
  | .fire q => Sys2Proof.Machine.execFire q s

end Sys2Proof.Machine
end

