-- ==== Sys2Proof/Machine/Fetch.lean ====
section
/-! DEFINITION. Taking the next input: decoding a request and running what it decodes to (spec/10_state.md rules R25, R45;
spec/30_encoding.md rules R86, R89; spec/60_exceptions.md rule R208). PCRS has no program counter: nothing is fetched from memory. -/

namespace Sys2Proof.Machine

/-- A request whose type+flags word has an unassigned type: the BARE body (rule R86), within the frame buffer (rule R50). -/
def runUnassigned (tf : BitVec 16) (use : FormatUse) (s : State) : Answer :=
  if use.fits s.cfg then execUnassignedType (tfType tf) (tfFlags tf) use s else .fault .frameBufferOverrun

/-- Run a request: the instruction it decodes to; an unlisted code ends with `IllegalCommand` and changes nothing (rules R89, R208). -/
def runRequest (r : Request) (s : State) : Answer :=
  match decode s.cfg r with
  | .ok i => if i.wf s.cfg then exec i s else .fault .frameBufferOverrun
  | .error (.illegalCommand code) => raise (.illegalCommand code) s
  | .error (.unassignedType _) =>
    match r with
    | .format tf use => runUnassigned tf use s
    | .coded code _ => raise (.illegalCommand code) s

/-- Take one input (rule R62). -/
def takeInput (x : Input) (s : State) : Answer :=
  match x with
  | .reset => .next (resetInput s)
  | .request r => runRequest r s

/-- Put the inputs still to come. -/
def setSched (s : State) (rest : List Input) : State := { s with sched := rest }

/-- One step under valid straps: the first of the inputs still to come; without one the block waits. -/
def takeNext (s : State) : Answer :=
  match s.sched with
  | [] => .next s
  | x :: rest => takeInput x (setSched s rest)

end Sys2Proof.Machine
end

