-- ==== Sys2Proof/Machine/Step.lean ====
section
/-! DEFINITION. The step: one atomic element of the serial order of commands and events (spec/20_memory.md rules R58, R62). -/

namespace Sys2Proof.Machine

/-- One step. Straps that break a constraint of spec/00_scope.md rule R8 are refused; else the next input is taken. -/
def step (s : State) : Host.Outcome State Fault Refusal :=
  if cfgValid s.cfg then takeNext s else .refused .invalidConfig

/-- `s` with the instruction of an opcode-table word as the next input: PCRS runs no program (rule R25), so the host's request stands for
the fetch (log entry 6). -/
def State.withFetchWord (s : State) (nbits w : Nat) : State :=
  { s with sched := .request (requestOfWord nbits w) :: s.sched }

end Sys2Proof.Machine
end

