-- ==== Sys2Proof/Safety.lean ====
section
/-! DEFINITION. The terms in which statements speak of runs: what a response does to the state, which statuses are refusals and which a row
can end with (spec/60_exceptions.md rules R200, R213), the invariant of the machine (spec/10_state.md rule R39, spec/43_window.md rule R171,
spec/70_reset_and_hazards.md rule R232), and runs of the clock. -/

namespace Sys2Proof.Safety

open Sys2Proof.Machine

/-- `s` with one response on the port and nothing else changed. -/
def replied (s : State) (status cause : Byte) (result : Result) : State :=
  { s with response := some { status := status, cause := cause, result := result } }

/-- The invariant. The straps meet rule R8; the window has its canonical form, at most `CAP` entries and only serialisable packets
(rules R39, R171); and if it is not empty, a key is loaded (rule R232). -/
structure StateInv (s : State) : Prop where
  straps : cfgValid s.cfg = true
  canonical : Window.wf s.window
  bounded : s.window.length ≤ s.cfg.cap
  serialisable : ∀ e ∈ s.window, isSerialisable s.cfg e.pkt = true
  keyed : s.window ≠ [] → s.keyValid = true

/-- The last response has a status of the kind refusal (rules R13, R200). -/
def refusedLast (s : State) : Bool := s.response.any (fun r => statusKind r.status == some .refusal)

/-- The step under the strict reading of rule R13, which lets nothing be proved past a refusal: after a response with a refusal status there is
no step, and a fault or a refusal of the machine is none either. `step` itself goes on, as rules R216 and R219 say (log entry 9). -/
def strictStep (s : State) : Option State :=
  if refusedLast s then none
  else
    match step s with
    | .next t => some t
    | .fault _ => none
    | .refused _ => none

/-- The statuses a row can end with: the column "raised by" of rule R200 and the table of rule R213. A packet-type row reads as PARSE does and
writes as SER does (log entry 7); an event has no response. -/
def statusesOf : Instr → List Byte
  | .syn _ use => formatStatuses use
  | .connect _ use => formatStatuses use
  | .data _ use => formatStatuses use
  | .disconnect _ use => formatStatuses use
  | .ping _ use => formatStatuses use
  | .vdet _ => [0x00, 0x01]
  | .parse _ => [0x00, 0x01, 0x10]
  | .ser _ => [0x00, 0x02, 0x10, 0x11]
  | .keyb _ => [0x00]
  | .keyn _ => [0x00]
  | .csum _ => [0x00, 0x11]
  | .cver _ => [0x00, 0x01, 0x11]
  | .mksyn _ _ => [0x00]
  | .mkcon _ _ _ _ => [0x00, 0x02]
  | .mkack _ _ => [0x00, 0x02, 0x03, 0x10, 0x12]
  | .wfull => [0x00]
  | .wadd _ _ => [0x00, 0x02, 0x10, 0x11, 0x13]
  | .wack _ => [0x00]
  | .wwait _ => [0x00]
  | .wretime _ _ => [0x00, 0x14]
  | .wclear => [0x00]
  | .send _ => [0x00, 0x02, 0x10, 0x11, 0x13]
  | .tick => []
  | .fire _ => []
where
  /-- The statuses of PARSE, or those of SER. -/
  formatStatuses : FormatUse → List Byte
    | .parse _ _ _ => [0x00, 0x01, 0x10]
    | .serialise _ => [0x00, 0x02, 0x10, 0x11]

/-- A channel byte in 0xA0..0xAF (rule R88). -/
def inChannelRange (b : Byte) : Prop := 0xA0 ≤ b.toNat ∧ b.toNat ≤ 0xAF

/-- The two leading bytes announce another version (rules R76, R88). -/
def isVersionTag (b0 b1 : Byte) : Prop := b0 = 0xEA ∧ b1 = 0xD0

/-- The frame of the layout table (rule R70): the common header of rule R71 byte by byte, then `mid`, then the checksum byte. -/
def frameWith (src dst : Byte) (tf : BitVec 16) (sid : Byte) (sig : Bytes) (q : SeqId) (mid : Bytes) (ck : Byte) : Bytes :=
  [src, dst] ++ le16 tf ++ [sid] ++ sig ++ le16 q ++ mid ++ [ck]

/-- The packet of a frame whose body and tail hold nothing: the header's fields, the checksum, and defaults (rules R21, R71). -/
def headerPacket (src dst : Byte) (tf : BitVec 16) (sid : Byte) (sig : Bytes) (q : SeqId) (ck : Byte) : Packet where
  version := 0
  src := src
  dst := dst
  type := tfType tf
  flags := tfFlags tf
  sessionId := sid
  pktSig := sig
  seq := q
  fragId := 0
  connSig := [0, 0, 0, 0]
  payload := []
  checksum := ck

/-- A payload with its size before it (rule R80). -/
def sizedPayload (pl : Bytes) : Bytes := le16 (BitVec.ofNat 16 pl.length) ++ pl

/-- `n` TICKs one after the other. -/
def runTicks : Nat → State → Answer
  | 0, s => .next s
  | n + 1, s =>
    match exec .tick s with
    | .next t => runTicks n t
    | .fault r => .fault r
    | .refused r => .refused r

/-- The instruction is an event, not a host command (rule R83). -/
def isEvent : Instr → Bool
  | .tick => true
  | .fire _ => true
  | _ => false

end Sys2Proof.Safety
end

