-- ==== Sys2Proof/Certificates/Slice0/Obligations.lean ====
section
/-! DEFINITION. The statements for the provers. Each docstring names the rule of spec/ it formalises, or the passage it is derived from.
A reply is an exact next state: what it does not name is unchanged. -/

open Sys2Proof Sys2Proof.Machine Sys2Proof.Safety

/-! The step, the decoder and the opcode map. -/

/-- A step takes the next input, and a request that decodes to a well-formed instruction runs exactly it. What the step adds around
`exec` is that the input is taken off the schedule (20_memory R58, R62; the schedule is the model's own field, log entry 6). -/
def Obligations.StepRunsDecodedRequest : Prop :=
  ∀ (s : State) (r : Request) (rest : List Input) (i : Instr),
    cfgValid s.cfg = true → s.sched = .request r :: rest → decode s.cfg r = .ok i → i.wf s.cfg = true →
      step s = exec i { s with sched := rest }

/-- Where a step does not run an instruction. Straps that 00_scope R8 rules out, or another value than the fixed one of R7, are refused (log
entry 3); without an input the block waits (log entry 6); an operand longer than the frame buffer is a fault (log entry 10). A request with
a type+flags word that has no row is the model's own form (log entry 7): its frame is read and its packet written with the BARE body, as
PARSE and SER do for that type (30_encoding R86), and a frame longer than the buffer is a fault here too (log entry 10). -/
def Obligations.StepStopsAndWaits : Prop :=
  (∀ s : State, cfgValid s.cfg = false → step s = .refused .invalidConfig)
  ∧ (∀ s : State, cfgValid s.cfg = true → s.sched = [] → step s = .next s)
  ∧ (∀ (s : State) (r : Request) (rest : List Input) (i : Instr),
      cfgValid s.cfg = true → s.sched = .request r :: rest → decode s.cfg r = .ok i → i.wf s.cfg = false →
        step s = .fault .frameBufferOverrun)
  ∧ (∀ (s : State) (tf : BitVec 16) (src dst : Byte) (tail : Bytes) (rest : List Input),
      cfgValid s.cfg = true → s.sched = .request (.format tf (.parse src dst tail)) :: rest → tfType tf ∉ typeCodes s.cfg →
      tail.length + 4 ≤ s.cfg.maxFrame →
        step s = exec (.parse ([src, dst] ++ le16 tf ++ tail)) { s with sched := rest })
  ∧ (∀ (s : State) (tf : BitVec 16) (src dst : Byte) (tail : Bytes) (rest : List Input),
      cfgValid s.cfg = true → s.sched = .request (.format tf (.parse src dst tail)) :: rest → tfType tf ∉ typeCodes s.cfg →
      s.cfg.maxFrame < tail.length + 4 → step s = .fault .frameBufferOverrun)
  ∧ (∀ (s : State) (tf : BitVec 16) (v : Packet) (rest : List Input),
      cfgValid s.cfg = true → s.sched = .request (.format tf (.serialise v)) :: rest → tfType tf ∉ typeCodes s.cfg →
        step s = exec (.ser { v with type := tfType tf, flags := tfFlags tf }) { s with sched := rest })

/-- Rule R89: a command code that rule R83 does not list ends with `IllegalCommand`, the code as its cause, and no state changes. -/
def Obligations.UnlistedCodeIsIllegalCommand : Prop :=
  ∀ (s : State) (code : Byte) (ops : Operands) (rest : List Input),
    cfgValid s.cfg = true → s.sched = .request (.coded code ops) :: rest →
    code ∉ ([0x01, 0x02, 0x03, 0x08, 0x09, 0x0A, 0x0B, 0x10, 0x11, 0x12, 0x20, 0x21, 0x22, 0x23, 0x24, 0x25, 0x30, 0x40, 0x41] : List Byte) →
      step s = .next (replied { s with sched := rest } 0x1F code .nothing)

/-- Decoding what the encoder writes gives the instruction back, for all 24 constructors and every operand (30_encoding sections 2, 3). That
operands stand in lanes is the model's choice (log entry 12). -/
def Obligations.DecodeOfEncode : Prop :=
  ∀ (c : Cfg) (i : Instr), cfgValid c = true → decode c (encode c i) = .ok i

/-- Encoding what the decoder reads gives the type+flags word and what it is applied to back, bit for bit, and the command code back.
The lanes of operands are the model's choice (log entry 12). -/
def Obligations.EncodeOfDecode : Prop :=
  (∀ (c : Cfg) (tf : BitVec 16) (use : FormatUse) (i : Instr), decode c (.format tf use) = .ok i → encode c i = .format tf use)
  ∧ (∀ (c : Cfg) (code : Byte) (ops : Operands) (i : Instr), decode c (.coded code ops) = .ok i →
      ∃ lanes, encode c i = .coded code lanes)

/-- One word of every family, written out from rules R83 and R84 and opcode_table.json. The operands of zero, and that a
packet-type word is an instruction, are the model's choices, as are the straps (log entries 12, 7, 3). -/
def Obligations.TableWordsDecode : Prop :=
  decodeTableWord 16 0x0040 = some (.syn 0x004 (.parse 0 0 []))
  ∧ decodeTableWord 16 0x0061 = some (.connect 0x006 (.parse 0 0 []))
  ∧ decodeTableWord 16 0x2082 = some (.data 0x208 (.parse 0 0 []))
  ∧ decodeTableWord 8 0x01 = some (.vdet [])
  ∧ decodeTableWord 8 0x09 = some (.keyn 0)
  ∧ decodeTableWord 8 0x10 = some (.mksyn 0 0)
  ∧ decodeTableWord 8 0x24 = some (.wretime 0 none)
  ∧ decodeTableWord 8 0x30 = some (.send (defaultPacket 0))
  ∧ decodeTableWord 8 0x41 = some (.fire 0)
  ∧ decodeTableWord 8 0x04 = none

/-- Rule R79 and rule R10: the fields of a type+flags word, and the little-endian primitives, in numbers; reading undoes writing. -/
def Obligations.WordFieldsAndByteOrder : Prop :=
  (∀ (flags : FlagSet) (type : TypeCode), (typeFlagsWord flags type).toNat = 16 * flags.toNat + type.toNat
    ∧ tfFlags (typeFlagsWord flags type) = flags ∧ tfType (typeFlagsWord flags type) = type)
  ∧ (∀ (b : Bytes) (i : Nat), (le16At b i).toNat = (byteAt b i).toNat + 256 * (byteAt b (i + 1)).toNat
    ∧ (le32At b i).toNat = (byteAt b i).toNat + 256 * (byteAt b (i + 1)).toNat + 65536 * (byteAt b (i + 2)).toNat
        + 16777216 * (byteAt b (i + 3)).toNat)
  ∧ (∀ v : BitVec 16, (le16 v).map BitVec.toNat = [v.toNat % 256, v.toNat / 256] ∧ le16At (le16 v) 0 = v)
  ∧ (∀ v : BitVec 32, (le32 v).map BitVec.toNat = [v.toNat % 256, v.toNat / 256 % 256, v.toNat / 65536 % 256, v.toNat / 16777216]
    ∧ le32At (le32 v) 0 = v)

/-! VDET, PARSE, SER. -/

/-- Rule R100: what VDET answers for every buffer, with nothing else changed. -/
def Obligations.VersionDetectionAnswers : Prop :=
  ∀ s : State,
    exec (.vdet []) s = .next (replied s 0x01 2 .nothing)
    ∧ (∀ b0, exec (.vdet [b0]) s = .next (replied s 0x01 2 .nothing))
    ∧ (∀ b0 b1 rest, inChannelRange b0 ∧ inChannelRange b1 →
        exec (.vdet (b0 :: b1 :: rest)) s = .next (replied s 0x00 0 (.version 0 false)))
    ∧ exec (.vdet [0xEA, 0xD0]) s = .next (replied s 0x01 2 .nothing)
    ∧ (∀ b2 rest, exec (.vdet (0xEA :: 0xD0 :: b2 :: rest)) s = .next (replied s 0x00 0 (.version b2 true)))
    ∧ (∀ b0 b1 rest, ¬ (inChannelRange b0 ∧ inChannelRange b1) → ¬ isVersionTag b0 b1 →
        exec (.vdet (b0 :: b1 :: rest)) s = .next (replied s 0x01 1 .nothing))

/-- What PARSE answers before it reads a field (40_codec_wire, PARSE: the first two tests of the pseudocode of R104): VDET's errors, the
refusal of a tagged buffer whatever its third byte is, and SHORT below 12 bytes. -/
def Obligations.ParseRefusesLead : Prop :=
  ∀ s : State,
    (∀ buf : Bytes, buf.length < 2 → exec (.parse buf) s = .next (replied s 0x01 2 .nothing))
    ∧ (∀ b0 b1 rest, ¬ (inChannelRange b0 ∧ inChannelRange b1) → ¬ isVersionTag b0 b1 →
        exec (.parse (b0 :: b1 :: rest)) s = .next (replied s 0x01 1 .nothing))
    ∧ exec (.parse [0xEA, 0xD0]) s = .next (replied s 0x01 2 .nothing)
    ∧ (∀ b2 rest, exec (.parse (0xEA :: 0xD0 :: b2 :: rest)) s = .next (replied s 0x10 b2 .nothing))
    ∧ (∀ b0 b1 rest, inChannelRange b0 ∧ inChannelRange b1 → rest.length < 10 →
        exec (.parse (b0 :: b1 :: rest)) s = .next (replied s 0x01 2 .nothing))

/-- Where PARSE completes, for each body format of rule R72 under each tail option of rule R73: the packet has the bytes the layout of
rule R70 gives each field, defaults elsewhere (rule R106), and the last byte as its checksum. The type values with no name take the
BARE body (rule R86); HAS_SIZE wins over the inferred length (rule R73). -/
def Obligations.ParseReadsEveryFormat : Prop :=
  ∀ (s : State) (src dst : Byte) (tf : BitVec 16) (sid : Byte) (sig : Bytes) (q : SeqId) (csig : Bytes) (frag : Byte) (pl : Bytes) (ck : Byte),
    cfgValid s.cfg = true → inChannelRange src → inChannelRange dst → sig.length = 4 → csig.length = 4 →
    (tfType tf = s.cfg.tSyn ∨ tfType tf = s.cfg.tConnect →
      (tfFlags tf &&& s.cfg.fHasSize = 0 →
        exec (.parse (frameWith src dst tf sid sig q csig ck)) s
          = .next (replied s 0x00 0 (.packet { headerPacket src dst tf sid sig q ck with connSig := csig })))
      ∧ (tfFlags tf &&& s.cfg.fHasSize ≠ 0 → pl.length ≤ 65535 →
        exec (.parse (frameWith src dst tf sid sig q (csig ++ sizedPayload pl) ck)) s
          = .next (replied s 0x00 0 (.packet { headerPacket src dst tf sid sig q ck with connSig := csig, payload := pl }))))
    ∧ (tfType tf = s.cfg.tData →
      (tfFlags tf &&& s.cfg.fHasSize = 0 → tfFlags tf &&& s.cfg.fAck ≠ 0 →
        exec (.parse (frameWith src dst tf sid sig q [frag] ck)) s
          = .next (replied s 0x00 0 (.packet { headerPacket src dst tf sid sig q ck with fragId := frag })))
      ∧ (tfFlags tf &&& s.cfg.fHasSize = 0 → tfFlags tf &&& s.cfg.fAck = 0 →
        exec (.parse (frameWith src dst tf sid sig q (frag :: pl) ck)) s
          = .next (replied s 0x00 0 (.packet { headerPacket src dst tf sid sig q ck with fragId := frag, payload := pl })))
      ∧ (tfFlags tf &&& s.cfg.fHasSize ≠ 0 → pl.length ≤ 65535 →
        exec (.parse (frameWith src dst tf sid sig q (frag :: sizedPayload pl) ck)) s
          = .next (replied s 0x00 0 (.packet { headerPacket src dst tf sid sig q ck with fragId := frag, payload := pl }))))
    ∧ (tfType tf ∉ [s.cfg.tSyn, s.cfg.tConnect, s.cfg.tData] →
      (tfFlags tf &&& s.cfg.fHasSize = 0 →
        exec (.parse (frameWith src dst tf sid sig q [] ck)) s
          = .next (replied s 0x00 0 (.packet (headerPacket src dst tf sid sig q ck))))
      ∧ (tfFlags tf &&& s.cfg.fHasSize ≠ 0 → pl.length ≤ 65535 →
        exec (.parse (frameWith src dst tf sid sig q (sizedPayload pl) ck)) s
          = .next (replied s 0x00 0 (.packet { headerPacket src dst tf sid sig q ck with payload := pl }))))

/-- Where PARSE finds a frame too short for its fields or longer than they need (40_codec_wire R104, R105, R107): `mid` is what lies between
the common header and the checksum byte. -/
def Obligations.ParseIsStrictAboutLength : Prop :=
  ∀ (s : State) (src dst : Byte) (tf : BitVec 16) (sid : Byte) (sig : Bytes) (q : SeqId) (mid : Bytes) (ck : Byte),
    cfgValid s.cfg = true → inChannelRange src → inChannelRange dst → sig.length = 4 →
    ∀ body : Nat,
      body = (if tfType tf = s.cfg.tSyn ∨ tfType tf = s.cfg.tConnect then 4 else if tfType tf = s.cfg.tData then 1 else 0) →
      let short := exec (.parse (frameWith src dst tf sid sig q mid ck)) s = .next (replied s 0x01 2 .nothing)
      let long := exec (.parse (frameWith src dst tf sid sig q mid ck)) s = .next (replied s 0x01 3 .nothing)
      (mid.length < body → short)
      ∧ (tfFlags tf &&& s.cfg.fHasSize ≠ 0 → body ≤ mid.length → mid.length < body + 2 → short)
      ∧ (tfFlags tf &&& s.cfg.fHasSize ≠ 0 → body + 2 ≤ mid.length → mid.length < body + 2 + (le16At mid body).toNat → short)
      ∧ (tfFlags tf &&& s.cfg.fHasSize ≠ 0 → body + 2 + (le16At mid body).toNat < mid.length → long)
      ∧ (tfFlags tf &&& s.cfg.fHasSize = 0 → (tfType tf = s.cfg.tData → tfFlags tf &&& s.cfg.fAck ≠ 0) → body < mid.length → long)

/-- The re-encoding law (40_codec_wire R108, derived there): a buffer PARSE accepts is what encoding its packet gives, checksum byte apart. -/
def Obligations.ParsedPacketReencodes : Prop :=
  ∀ (s t : State) (buf : Bytes) (v : Packet), cfgValid s.cfg = true → exec (.parse buf) s = .next t →
    t.response = some { status := 0x00, cause := 0, result := .packet v } →
      buf = encodePacket s.cfg v ++ [v.checksum]

/-- What PARSE returns is canonical, of version 0, serialisable if the frame fits the buffer, and has both signatures of length 4
(40_codec_wire R106). -/
def Obligations.ParsedPacketIsCanonical : Prop :=
  ∀ (s t : State) (buf : Bytes) (v : Packet), cfgValid s.cfg = true → exec (.parse buf) s = .next t →
    t.response = some { status := 0x00, cause := 0, result := .packet v } →
      canon s.cfg v = v ∧ v.version = 0 ∧ v.pktSig.length = 4 ∧ v.connSig.length = 4
      ∧ (buf.length ≤ s.cfg.maxFrame → isSerialisable s.cfg v = true)

/-- Rule R110: the frame SER returns for a packet that passes the checks, byte by byte for each body format and tail option, with the
checksum computed now; for any other packet a refusal. Nothing else changes, and the packet's own checksum field is not read. -/
def Obligations.SerWritesEveryFormat : Prop :=
  ∀ (s : State) (v : Packet), cfgValid s.cfg = true →
    (s.keyValid = true ∧ isSerialisable s.cfg v = true →
      let head := [v.src, v.dst] ++ le16 (typeFlagsWord v.flags v.type) ++ [v.sessionId] ++ v.pktSig ++ le16 v.seq
      let body := if v.type = s.cfg.tSyn ∨ v.type = s.cfg.tConnect then v.connSig else if v.type = s.cfg.tData then [v.fragId] else []
      let tail := if v.flags &&& s.cfg.fHasSize ≠ 0 then le16 (BitVec.ofNat 16 v.payload.length) ++ v.payload
        else if v.type = s.cfg.tData ∧ v.flags &&& s.cfg.fAck = 0 then v.payload else []
      exec (.ser v) s = .next (replied s 0x00 0 (.frame (head ++ body ++ tail ++ [checksum (head ++ body ++ tail) s.key]))))
    ∧ (¬ (s.keyValid = true ∧ isSerialisable s.cfg v = true) →
      ∃ status cause, status ≠ 0x00 ∧ exec (.ser v) s = .next (replied s status cause .nothing))

/-- Rule R109: the admission checks of SER in their order, each with the status and cause of the first that fails; checks 1 and 3 to 7
together are `isSerialisable`; and a packet that passes them all is serialised to a frame of the length the checks computed. -/
def Obligations.SerChecksInOrder : Prop :=
  ∀ (s : State) (v : Packet), cfgValid s.cfg = true →
    let hasSize := v.flags &&& s.cfg.fHasSize ≠ 0
    let isSig := v.type = s.cfg.tSyn ∨ v.type = s.cfg.tConnect
    let slot := hasSize ∨ (v.type = s.cfg.tData ∧ v.flags &&& s.cfg.fAck = 0)
    let length := 12 + (if isSig then 4 else if v.type = s.cfg.tData then 1 else 0)
      + (if hasSize then 2 + v.payload.length else if slot then v.payload.length else 0)
    (isSerialisable s.cfg v = true ↔
      v.version = 0 ∧ v.pktSig.length = 4 ∧ (isSig → v.connSig.length = 4) ∧ (¬ slot → v.payload.length = 0)
        ∧ (hasSize → v.payload.length ≤ 65535) ∧ length ≤ s.cfg.maxFrame)
    ∧ (v.version ≠ 0 → exec (.ser v) s = .next (replied s 0x10 v.version .nothing))
    ∧ (v.version = 0 →
      (s.keyValid = false → exec (.ser v) s = .next (replied s 0x11 0 .nothing))
      ∧ (s.keyValid = true →
        (v.pktSig.length ≠ 4 → exec (.ser v) s = .next (replied s 0x02 2 .nothing))
        ∧ (v.pktSig.length = 4 →
          (isSig ∧ v.connSig.length ≠ 4 → exec (.ser v) s = .next (replied s 0x02 1 .nothing))
          ∧ (¬ (isSig ∧ v.connSig.length ≠ 4) →
            (¬ slot ∧ v.payload.length ≠ 0 → exec (.ser v) s = .next (replied s 0x02 3 .nothing))
            ∧ (¬ (¬ slot ∧ v.payload.length ≠ 0) →
              (hasSize ∧ 65535 < v.payload.length → exec (.ser v) s = .next (replied s 0x02 4 .nothing))
              ∧ (¬ (hasSize ∧ 65535 < v.payload.length) →
                (s.cfg.maxFrame < length → exec (.ser v) s = .next (replied s 0x02 5 .nothing))
                ∧ (length ≤ s.cfg.maxFrame →
                    exec (.ser v) s = .next (replied s 0x00 0 (.frame (frameOf s.cfg s.key v)))
                      ∧ (frameOf s.cfg s.key v).length = length)))))))

/-- The round trip (40_codec_wire R112, derived there): the frame SER makes parses back to the canonical form of the packet, with the
checksum computed at the time. The parsing unit has the same straps and may be in any other state. -/
def Obligations.SerialisedFrameParsesBack : Prop :=
  ∀ (s t p : State) (v : Packet) (f : Bytes), cfgValid s.cfg = true → exec (.ser v) s = .next t →
    t.response = some { status := 0x00, cause := 0, result := .frame f } →
    inChannelRange v.src → inChannelRange v.dst → p.cfg = s.cfg →
      exec (.parse f) p
        = .next (replied p 0x00 0 (.packet { canon s.cfg v with checksum := checksum (encodePacket s.cfg v) s.key }))

/-! The packet-type rows. -/

/-- A packet-type row reads a frame as PARSE does and writes a packet as SER does, when the frame or the packet has the row's type
(30_encoding sections 1, 3; 40_codec_wire). The reading of a row as an instruction is the model's (log entry 7). -/
def Obligations.PacketTypeRowsAgreeWithCodec : Prop :=
  ∀ (s : State) (flags : FlagSet) (src dst : Byte) (rest : Bytes) (v : Packet), cfgValid s.cfg = true →
    ∀ row ∈ [(Instr.syn, s.cfg.tSyn), (Instr.connect, s.cfg.tConnect), (Instr.data, s.cfg.tData), (Instr.disconnect, s.cfg.tDisconnect),
        (Instr.ping, s.cfg.tPing)],
      exec (row.1 flags (.parse src dst rest)) s
          = exec (.parse ([src, dst] ++ le16 (typeFlagsWord flags row.2) ++ rest)) s
      ∧ exec (row.1 flags (.serialise v)) s = exec (.ser { v with type := row.2, flags := flags }) s

/-- Where a packet-type row completes in reading: SYN and CONNECT with the SIG body, DATA with the FRAG body, DISCONNECT and PING with the
BARE body, each without HAS_SIZE and, for DATA, with the inferred payload (rules R72, R73, R81; log entry 7). -/
def Obligations.PacketTypeRowsRead : Prop :=
  ∀ (s : State) (flags : FlagSet) (src dst sid : Byte) (sig : Bytes) (q : SeqId) (csig : Bytes) (frag : Byte) (pl : Bytes) (ck : Byte),
    cfgValid s.cfg = true → inChannelRange src → inChannelRange dst → sig.length = 4 → csig.length = 4 →
    flags &&& s.cfg.fHasSize = 0 → flags &&& s.cfg.fAck = 0 →
    let after := fun (mid : Bytes) => [sid] ++ sig ++ le16 q ++ mid ++ [ck]
    let head := fun (type : TypeCode) => headerPacket src dst (typeFlagsWord flags type) sid sig q ck
    exec (.syn flags (.parse src dst (after csig))) s
        = .next (replied s 0x00 0 (.packet { head s.cfg.tSyn with connSig := csig }))
    ∧ exec (.connect flags (.parse src dst (after csig))) s
        = .next (replied s 0x00 0 (.packet { head s.cfg.tConnect with connSig := csig }))
    ∧ exec (.data flags (.parse src dst (after (frag :: pl)))) s
        = .next (replied s 0x00 0 (.packet { head s.cfg.tData with fragId := frag, payload := pl }))
    ∧ exec (.disconnect flags (.parse src dst (after []))) s
        = .next (replied s 0x00 0 (.packet (head s.cfg.tDisconnect)))
    ∧ exec (.ping flags (.parse src dst (after []))) s
        = .next (replied s 0x00 0 (.packet (head s.cfg.tPing)))

/-- Where a packet-type row completes in writing: the frame of the packet with the row's type and flags (rule R110; log entry 7). -/
def Obligations.PacketTypeRowsWrite : Prop :=
  ∀ (s : State) (flags : FlagSet) (v : Packet), s.keyValid = true →
    ∀ row ∈ [(Instr.syn, s.cfg.tSyn), (Instr.connect, s.cfg.tConnect), (Instr.data, s.cfg.tData), (Instr.disconnect, s.cfg.tDisconnect),
        (Instr.ping, s.cfg.tPing)],
      isSerialisable s.cfg { v with type := row.2, flags := flags } = true →
        exec (row.1 flags (.serialise v)) s
          = .next (replied s 0x00 0 (.frame (frameOf s.cfg s.key { v with type := row.2, flags := flags })))

/-! The checksum and its key. -/

/-- Rules R120 and R126: the checksum as a number, the sum of the words reduced once at the end, and `NoKey` before a key is loaded. -/
def Obligations.CsumComputesChecksum : Prop :=
  ∀ (s : State) (b : Bytes),
    (s.keyValid = false → exec (.csum b) s = .next (replied s 0x11 0 .nothing))
    ∧ (s.keyValid = true →
      let at' := fun i => (b.getD i 0).toNat
      let words := (List.range (b.length / 4)).map (fun i =>
        at' (4 * i) + 256 * at' (4 * i + 1) + 65536 * at' (4 * i + 2) + 16777216 * at' (4 * i + 3))
      let S := words.sum % 4294967296
      let R := ((b.drop (4 * (b.length / 4))).map BitVec.toNat).sum
      let C := S % 256 + S / 256 % 256 + S / 65536 % 256 + S / 16777216
      ∃ c : Byte, c.toNat = (s.key.toNat + R + C) % 256 ∧ exec (.csum b) s = .next (replied s 0x00 0 (.checksum c)))

/-- The order of the words does not matter to the checksum (41_checksum R121, derived there). -/
def Obligations.ChecksumIgnoresWordOrder : Prop :=
  ∀ (s : State) (a v w z : Bytes), a.length % 4 = 0 → v.length = 4 → w.length = 4 →
    exec (.csum (a ++ v ++ w ++ z)) s = exec (.csum (a ++ w ++ v ++ z)) s

/-- Rule R127: CVER compares the last byte with the checksum of the bytes before it; a failed verification is the result `false`. -/
def Obligations.CverComparesLastByte : Prop :=
  ∀ (s : State) (b : Bytes) (x : Byte),
    (s.keyValid = false → ∀ f : Bytes, exec (.cver f) s = .next (replied s 0x11 0 .nothing))
    ∧ (s.keyValid = true → exec (.cver []) s = .next (replied s 0x01 2 .nothing))
    ∧ (s.keyValid = true → exec (.cver (b ++ [x])) s = .next (replied s 0x00 0 (.verdict (decide (checksum b s.key = x)))))

/-- Verifying a frame and verifying its packet are the same (41_checksum R128, derived there). -/
def Obligations.VerifyAgreesWithParse : Prop :=
  ∀ (s t : State) (f : Bytes) (v : Packet), cfgValid s.cfg = true → s.keyValid = true → exec (.parse f) s = .next t →
    t.response = some { status := 0x00, cause := 0, result := .packet v } →
      exec (.cver f) s = .next (replied s 0x00 0 (.verdict (decide (checksum (encodePacket s.cfg v) s.key = v.checksum))))

/-- A frame SER made verifies in every state with the same key (41_checksum R129, derived there). -/
def Obligations.SerialisedFrameVerifies : Prop :=
  ∀ (s t p : State) (v : Packet) (f : Bytes), exec (.ser v) s = .next t →
    t.response = some { status := 0x00, cause := 0, result := .frame f } → p.keyValid = true → p.key = s.key →
      exec (.cver f) p = .next (replied p 0x00 0 (.verdict true))

/-- Rules R124 and R125: KEYB loads the sum of the bytes modulo 256 whatever their order, KEYN the number modulo 256, both set KEY_VALID,
never fail, and change nothing else; storing `n mod 256` changes no checksum. -/
def Obligations.KeyCommandsLoadKey : Prop :=
  (∀ (s : State) (k : Bytes), ∃ x : Byte, x.toNat = (k.map BitVec.toNat).sum % 256
    ∧ exec (.keyb k) s = .next (replied { s with key := x, keyValid := true } 0x00 0 .nothing))
  ∧ (∀ (s : State) (k l : Bytes), k.Perm l → exec (.keyb k) s = exec (.keyb l) s)
  ∧ (∀ (s : State) (n : Nat), ∃ x : Byte, x.toNat = n % 256
    ∧ exec (.keyn n) s = .next (replied { s with key := x, keyValid := true } 0x00 0 .nothing)
    ∧ ∀ b : Bytes, (checksum b x).toNat = (n + remainderSum b + laneSum (wordSum b)) % 256)

/-! Factories and acks. -/

/-- Rules R150 and R151: the packets of MKSYN and MKCON, field by field, and MKCON's refusals, the connection signature first. -/
def Obligations.FactoriesBuildPackets : Prop :=
  ∀ (s : State) (l r : Byte) (csig psig : Bytes),
    exec (.mksyn l r) s = .next (replied s 0x00 0 (.packet
      { version := 0, src := l, dst := r, type := s.cfg.tSyn, flags := s.cfg.fNeedAck, sessionId := 0, pktSig := [0, 0, 0, 0], seq := 0,
        fragId := 0, connSig := [0, 0, 0, 0], payload := [], checksum := 0 }))
    ∧ (csig.length ≠ 4 → exec (.mkcon l r csig psig) s = .next (replied s 0x02 1 .nothing))
    ∧ (csig.length = 4 → psig.length ≠ 4 → exec (.mkcon l r csig psig) s = .next (replied s 0x02 2 .nothing))
    ∧ (csig.length = 4 → psig.length = 4 → exec (.mkcon l r csig psig) s = .next (replied s 0x00 0 (.packet
      { version := 0, src := l, dst := r, type := s.cfg.tConnect, flags := s.cfg.fNeedAck ||| s.cfg.fReliable, sessionId := 0, pktSig := psig,
        seq := 1, fragId := 0, connSig := csig, payload := [], checksum := 0 })))

/-- Rule R141: without NEED_ACK the operation yields no packet, before every other test, and draws nothing. -/
def Obligations.AckNeedsNeedAck : Prop :=
  ∀ (s : State) (r : Packet) (o : AckOptions), r.flags &&& s.cfg.fNeedAck = 0 →
    exec (.mkack r o) s = .next (replied s 0x00 0 (.ack none))

/-- Rules R142, R143 and R147 in the order of rule R148: what MKACK refuses, with nothing drawn. -/
def Obligations.AckRefusalsInOrder : Prop :=
  ∀ (s : State) (r : Packet) (o : AckOptions), cfgValid s.cfg = true → r.flags &&& s.cfg.fNeedAck ≠ 0 →
    let known := r.type ∈ [s.cfg.tSyn, s.cfg.tConnect, s.cfg.tData, s.cfg.tDisconnect, s.cfg.tPing]
    let session := r.type = s.cfg.tSyn ∨ ∃ x, o.sessionId = some x
    (r.version ≠ 0 → exec (.mkack r o) s = .next (replied s 0x10 r.version .nothing))
    ∧ (r.version = 0 → ¬ known → exec (.mkack r o) s = .next (replied s 0x03 1 .nothing))
    ∧ (r.version = 0 → known → ¬ session → exec (.mkack r o) s = .next (replied s 0x03 2 .nothing))
    ∧ (r.version = 0 → r.type = s.cfg.tSyn → ∀ g, o.connSig = some g → g.length ≠ 4 →
        exec (.mkack r o) s = .next (replied s 0x02 1 .nothing))
    ∧ (r.version = 0 → r.type = s.cfg.tConnect → session → ∀ g, o.pktSig = some g → g.length ≠ 4 →
        exec (.mkack r o) s = .next (replied s 0x02 2 .nothing))
    ∧ (r.version = 0 → r.type = s.cfg.tPing → session → exec (.mkack r o) s = .next (replied s 0x12 0 .nothing))

/-- Rule R144: the ack of each type, field by field; nothing but the channels, the type and the sequence id comes from `r`. A signature
that is not supplied is four bytes of which nothing else is said; no register changes, only what the RNG port has delivered. -/
def Obligations.AckBuiltByType : Prop :=
  ∀ (s : State) (r : Packet) (o : AckOptions), cfgValid s.cfg = true → r.flags &&& s.cfg.fNeedAck ≠ 0 → r.version = 0 →
    let ack : Byte → Packet := fun sid =>
      { version := 0, src := r.dst, dst := r.src, type := r.type, flags := s.cfg.fAck ||| s.cfg.fHasSize, sessionId := sid,
        pktSig := [0, 0, 0, 0], seq := r.seq, fragId := 0, connSig := [0, 0, 0, 0], payload := [], checksum := 0 }
    (r.type = s.cfg.tSyn →
      (∀ g, o.connSig = some g → g.length = 4 →
        exec (.mkack r o) s = .next (replied s 0x00 0 (.ack (some { ack (o.sessionId.getD 0) with connSig := g }))))
      ∧ (o.connSig = none → ∃ (g : Bytes) (n : Nat), g.length = 4
        ∧ exec (.mkack r o) s
          = .next (replied { s with rng := n } 0x00 0 (.ack (some { ack (o.sessionId.getD 0) with connSig := g })))))
    ∧ (∀ sid, o.sessionId = some sid →
      (r.type = s.cfg.tConnect →
        (∀ g, o.pktSig = some g → g.length = 4 →
          exec (.mkack r o) s = .next (replied s 0x00 0 (.ack (some { ack sid with pktSig := g }))))
        ∧ (o.pktSig = none → ∃ (g : Bytes) (n : Nat), g.length = 4
          ∧ exec (.mkack r o) s = .next (replied { s with rng := n } 0x00 0 (.ack (some { ack sid with pktSig := g })))))
      ∧ (r.type = s.cfg.tData →
        exec (.mkack r o) s = .next (replied s 0x00 0 (.ack (some { ack sid with pktSig := s.cfg.dataAckSig }))))
      ∧ (r.type = s.cfg.tDisconnect →
        exec (.mkack r o) s = .next (replied s 0x00 0 (.ack (some { ack sid with flags := s.cfg.fAck })))))

/-! The window. -/

/-- Rules R160 and R167: fullness and membership, with nothing changed. -/
def Obligations.WindowTestsAnswer : Prop :=
  ∀ (s : State) (q : SeqId),
    exec .wfull s = .next (replied s 0x00 0 (.verdict (decide (s.window.length = s.cfg.cap))))
    ∧ exec (.wwait q) s = .next (replied s 0x00 0 (.verdict (decide (∃ e ∈ s.window, e.pkt.seq = q))))

/-- Rule R163 where the add succeeds: the key reads as the new entry, every other key as before, COUNT grows by one, the window stays
canonical, and nothing else changes. -/
def Obligations.WaddInsertsEntry : Prop :=
  ∀ (s : State) (v : Packet) (timer : Option Nat), s.window.length ≠ s.cfg.cap → s.keyValid = true →
    isSerialisable s.cfg v = true → lookup s.window v.seq = none →
      ∃ w : Window, exec (.wadd v timer) s = .next (replied { s with window := w } 0x00 0 (.verdict true))
        ∧ lookup w v.seq = some { pkt := v, timer := timer } ∧ (∀ q, q ≠ v.seq → lookup w q = lookup s.window q)
        ∧ w.length = s.window.length + 1 ∧ (Window.wf s.window → Window.wf w)

/-- Rule R163 where the add does not succeed, in its order: full, version, key, the field checks, a key that is present. -/
def Obligations.WaddRefusalsInOrder : Prop :=
  ∀ (s : State) (v : Packet) (timer : Option Nat),
    (s.window.length = s.cfg.cap → exec (.wadd v timer) s = .next (replied s 0x00 0 (.verdict false)))
    ∧ (s.window.length ≠ s.cfg.cap →
      (v.version ≠ 0 → exec (.wadd v timer) s = .next (replied s 0x10 v.version .nothing))
      ∧ (v.version = 0 → s.keyValid = false → exec (.wadd v timer) s = .next (replied s 0x11 0 .nothing))
      ∧ (v.version = 0 → s.keyValid = true → isSerialisable s.cfg v = false → exec (.wadd v timer) s = exec (.ser v) s)
      ∧ (s.keyValid = true → isSerialisable s.cfg v = true → lookup s.window v.seq ≠ none →
          exec (.wadd v timer) s = .next (replied s 0x13 0 .nothing)))

/-- Rule R165: WACK removes exactly the entry of the packet's sequence id, reads nothing else of the packet, leaves every
other entry with its remaining time, and is a no-op where there is none. -/
def Obligations.WackRemovesExactlyOne : Prop :=
  ∀ (s : State) (p : Packet),
    (lookup s.window p.seq = none → exec (.wack p) s = .next (replied s 0x00 0 (.verdict false)))
    ∧ (∀ e, lookup s.window p.seq = some e → ∃ w : Window,
        exec (.wack p) s = .next (replied { s with window := w } 0x00 0 (.verdict true))
        ∧ lookup w p.seq = none ∧ (∀ q, q ≠ p.seq → lookup w q = lookup s.window q)
        ∧ (Window.wf s.window → Window.wf w ∧ w.length + 1 = s.window.length))
    ∧ (∀ p' : Packet, p'.seq = p.seq → exec (.wack p') s = exec (.wack p) s)

/-- Rule R168: WRETIME writes the timer of an existing entry and nothing else; for a missing one it is refused. -/
def Obligations.WretimeReplacesTimer : Prop :=
  ∀ (s : State) (q : SeqId) (timer : Option Nat),
    (lookup s.window q = none → exec (.wretime q timer) s = .next (replied s 0x14 0 .nothing))
    ∧ (∀ e, lookup s.window q = some e → ∃ w : Window,
        exec (.wretime q timer) s = .next (replied { s with window := w } 0x00 0 .nothing)
        ∧ lookup w q = some { e with timer := timer } ∧ (∀ r, r ≠ q → lookup w r = lookup s.window r)
        ∧ w.length = s.window.length ∧ (Window.wf s.window → Window.wf w))

/-- WCLEAR empties the window, answers how many entries went, and leaves KEY, KEY_VALID and SEQ; afterwards WCLEAR answers 0 and no FIRE is
enabled (43_window R170). That an attempt at a FIRE that is not enabled is a step that changes nothing is the model's choice (log entry 8), and
that it leaves no response is one too (log entry 5). -/
def Obligations.WclearEmptiesWindow : Prop :=
  ∀ s : State, ∃ t, t = replied { s with window := [] } 0x00 0 (.count s.window.length) ∧ exec .wclear s = .next t
    ∧ (∀ q, exec (.fire q) t = .next { t with response := none }) ∧ exec .wclear t = .next (replied t 0x00 0 (.count 0))

/-! SEND, TICK, FIRE. -/

/-- Rules R180, R181, R182 and R183 for a tracked packet: the old SEQ is assigned, SEQ advances modulo 65536, the frame of the packet
after assignment goes last on TX, and the entry is armed with RTO_TICKS, all in the one step. -/
def Obligations.SendRegistersTracked : Prop :=
  ∀ (s : State) (v u : Packet), u = { v with seq := s.seq } → s.window.length ≠ s.cfg.cap →
    v.flags &&& s.cfg.fAck = 0 → v.flags &&& s.cfg.fMultiAck = 0 → v.flags &&& (s.cfg.fNeedAck ||| s.cfg.fReliable) ≠ 0 →
    s.keyValid = true → isSerialisable s.cfg u = true → lookup s.window s.seq = none →
      let f := encodePacket s.cfg u ++ [checksum (encodePacket s.cfg u) s.key]
      ∃ (n : SeqId) (w : Window),
        exec (.send v) s
          = .next (replied { s with seq := n, tx := s.tx ++ [f], window := w } 0x00 0 (.sendReport .sent s.seq f))
        ∧ n.toNat = (s.seq.toNat + 1) % 65536
        ∧ lookup w s.seq = some { pkt := u, timer := some s.cfg.rtoTicks } ∧ (∀ q, q ≠ s.seq → lookup w q = lookup s.window q)
        ∧ w.length = s.window.length + 1 ∧ (Window.wf s.window → Window.wf w)

/-- Rules R180 and R182 for a packet that is not tracked: a fresh one takes SEQ and advances it, an ack or multi-ack keeps its own
sequence id and leaves SEQ; neither touches the window nor is stopped by a waiting entry. -/
def Obligations.SendTransmitsUntracked : Prop :=
  ∀ (s : State) (v : Packet),
    (s.window.length ≠ s.cfg.cap ∨ s.cfg.fullDropsUntracked = false) → s.keyValid = true →
    (v.flags &&& s.cfg.fAck = 0 → v.flags &&& s.cfg.fMultiAck = 0 → v.flags &&& (s.cfg.fNeedAck ||| s.cfg.fReliable) = 0 →
      ∀ u : Packet, u = { v with seq := s.seq } → isSerialisable s.cfg u = true →
        exec (.send v) s
          = .next (replied { s with seq := s.seq + 1, tx := s.tx ++ [frameOf s.cfg s.key u] } 0x00 0
              (.sendReport .sent s.seq (frameOf s.cfg s.key u))))
    ∧ (v.flags &&& s.cfg.fAck ≠ 0 ∨ v.flags &&& s.cfg.fMultiAck ≠ 0 → isSerialisable s.cfg v = true →
        exec (.send v) s
          = .next (replied { s with tx := s.tx ++ [frameOf s.cfg s.key v] } 0x00 0
              (.sendReport .sent v.seq (frameOf s.cfg s.key v))))

/-- Rules R184 and R185: a full window drops a send that would be tracked, and with FULL_DROPS_UNTRACKED every send, with status OK, no
frame, no sequence id taken and nothing validated. -/
def Obligations.FullWindowDropsSend : Prop :=
  ∀ (s : State) (v : Packet), s.window.length = s.cfg.cap →
    (s.cfg.fullDropsUntracked = true
      ∨ (v.flags &&& s.cfg.fAck = 0 ∧ v.flags &&& s.cfg.fMultiAck = 0 ∧ v.flags &&& (s.cfg.fNeedAck ||| s.cfg.fReliable) ≠ 0)) →
      exec (.send v) s = .next (replied s 0x00 0 (.sendReport .dropped v.seq []))

/-- What SEND refuses when it does not drop, in the order of its pseudocode (44_send_and_timers R180): version, key, the field checks, and for
a tracked packet a sequence id that waits; SEQ does not advance and nothing is transmitted. -/
def Obligations.SendRefusalsInOrder : Prop :=
  ∀ (s : State) (v : Packet),
    let tracked := v.flags &&& s.cfg.fAck = 0 ∧ v.flags &&& s.cfg.fMultiAck = 0 ∧ v.flags &&& (s.cfg.fNeedAck ||| s.cfg.fReliable) ≠ 0
    ¬ (s.window.length = s.cfg.cap ∧ (tracked ∨ s.cfg.fullDropsUntracked = true)) →
    (v.version ≠ 0 → exec (.send v) s = .next (replied s 0x10 v.version .nothing))
    ∧ (v.version = 0 → s.keyValid = false → exec (.send v) s = .next (replied s 0x11 0 .nothing))
    ∧ (v.version = 0 → s.keyValid = true → isSerialisable s.cfg v = false → exec (.send v) s = exec (.ser v) s)
    ∧ (s.keyValid = true → isSerialisable s.cfg v = true → lookup s.window s.seq ≠ none → tracked →
        exec (.send v) s = .next (replied s 0x13 0 .nothing))

/-- Rule R190: an enabled TICK counts every live timer down by one, leaves an entry without a timer alone, and changes nothing else. What
the response port shows after an event is left open here: it is the model's own field. -/
def Obligations.TickCountsTimersDown : Prop :=
  ∀ s : State, (∀ e ∈ s.window, e.timer ≠ some 0) →
    ∃ (w : Window) (r : Option Response), exec .tick s = .next { s with window := w, response := r }
      ∧ (∀ q, lookup s.window q = none → lookup w q = none)
      ∧ (∀ q e, lookup s.window q = some e → e.timer = none → lookup w q = some e)
      ∧ (∀ q e k, lookup s.window q = some e → e.timer = some (k + 1) → lookup w q = some { e with timer := some k })
      ∧ w.length = s.window.length ∧ (Window.wf s.window → Window.wf w)

/-- An event that is not enabled does not happen (44_send_and_timers R191, R192): TICK while an entry is expired, FIRE of an entry that is
missing or not expired. That the attempt is a step that changes nothing is the model's choice (log entry 8), and that it leaves no response is
one too (log entry 5). -/
def Obligations.DisabledEventsDoNothing : Prop :=
  ∀ s : State,
    ((∃ e ∈ s.window, e.timer = some 0) → exec .tick s = .next { s with response := none })
    ∧ (∀ q, lookup s.window q = none → exec (.fire q) s = .next { s with response := none })
    ∧ (∀ q e, lookup s.window q = some e → e.timer ≠ some 0 → exec (.fire q) s = .next { s with response := none })

/-- Rule R192: an enabled FIRE puts the frame of the stored packet, with the key of now, last on TX and re-arms the timer; SEQ, the other
entries and everything else are unchanged, and a full window does not matter. What the response port shows after an event is left open
here: it is the model's own field. -/
def Obligations.FireRetransmits : Prop :=
  ∀ (s : State) (q : SeqId) (e : Entry), lookup s.window q = some e → e.timer = some 0 →
    let f := encodePacket s.cfg e.pkt ++ [checksum (encodePacket s.cfg e.pkt) s.key]
    ∃ (w : Window) (r : Option Response), exec (.fire q) s = .next { s with tx := s.tx ++ [f], window := w, response := r }
      ∧ lookup w q = some { e with timer := some s.cfg.rtoTicks } ∧ (∀ r, r ≠ q → lookup w r = lookup s.window r)
      ∧ w.length = s.window.length ∧ (Window.wf s.window → Window.wf w)

/-- Resend identity (44_send_and_timers R194, derived there): a frame FIRE emits for a stored packet agrees with the frame SEND emitted for
it in every byte but the last, and in the last too if the key is the same. -/
def Obligations.ResendIsIdentical : Prop :=
  ∀ (s a b t : State) (v : Packet) (q : SeqId) (f : Bytes) (e : Entry),
    v.flags &&& s.cfg.fAck = 0 → v.flags &&& s.cfg.fMultiAck = 0 → v.flags &&& (s.cfg.fNeedAck ||| s.cfg.fReliable) ≠ 0 →
    exec (.send v) s = .next a → a.response = some { status := 0x00, cause := 0, result := .sendReport .sent q f } →
    lookup a.window q = some e → b.cfg = a.cfg → lookup b.window q = some { e with timer := some 0 } → exec (.fire q) b = .next t →
      ∃ g : Bytes, t.tx = b.tx ++ [g] ∧ g.dropLast = f.dropLast ∧ g.length = f.length ∧ (b.key = a.key → g = f)

/-- An entry armed with `k` fires after exactly `k` TICKs (44_send_and_timers R191; 70_reset R253): as long as no other timer runs out
first, it is not expired and TICK is enabled until then, and at the `k`-th it is expired and TICK is held. -/
def Obligations.FiresAfterExactlyItsTicks : Prop :=
  ∀ (s : State) (q : SeqId) (e : Entry) (k : Nat), lookup s.window q = some e → e.timer = some k →
    (∀ x ∈ s.window, ∀ j, x.timer = some j → k ≤ j) →
      (∀ n, n ≤ k → ∃ t, runTicks n s = .next t ∧ lookup t.window q = some { e with timer := some (k - n) }
        ∧ t.tx = s.tx ∧ t.seq = s.seq ∧ tickEnabled t = decide (n < k))

/-- WACK against FIRE (44_send_and_timers R199, derived there): in the one order nothing more is sent, in the other one more copy, and
the window ends the same. R199 says that FIRE is no longer enabled after WACK; that an attempt at it is then a step that changes nothing is the
model's choice (log entry 8). -/
def Obligations.WackAgainstFire : Prop :=
  ∀ (s : State) (p : Packet) (e : Entry), lookup s.window p.seq = some e → e.timer = some 0 →
    ∃ a b c d, exec (.wack p) s = .next a ∧ exec (.fire p.seq) a = .next b ∧ exec (.fire p.seq) s = .next c ∧ exec (.wack p) c = .next d
      ∧ b.window = d.window ∧ lookup b.window p.seq = none ∧ b.tx = s.tx ∧ d.tx = s.tx ++ [frameOf s.cfg s.key e.pkt]

/-- Two expired entries may fire in either order (44_send_and_timers R193): the states after both differ only in the order of the two
frames on TX. -/
def Obligations.FireOrderShowsOnlyOnTx : Prop :=
  ∀ (s : State) (q r : SeqId) (e g : Entry), q ≠ r → lookup s.window q = some e → e.timer = some 0 →
    lookup s.window r = some g → g.timer = some 0 →
      ∃ a b c d, exec (.fire q) s = .next a ∧ exec (.fire r) a = .next b ∧ exec (.fire r) s = .next c ∧ exec (.fire q) c = .next d
        ∧ b.tx = s.tx ++ [frameOf s.cfg s.key e.pkt, frameOf s.cfg s.key g.pkt]
        ∧ d = { b with tx := s.tx ++ [frameOf s.cfg s.key g.pkt, frameOf s.cfg s.key e.pkt] }

/-! The whole machine. -/

/-- Rule R216: on every status other than OK, and on every negative outcome with status OK, no state changes but the response port. -/
def Obligations.FailuresChangeNothing : Prop :=
  ∀ (i : Instr) (s t : State) (r : Response), exec i s = .next t → t.response = some r →
    (r.status ≠ 0x00 ∨ r.result = .verdict false ∨ r.result = .ack none ∨ ∃ q f, r.result = .sendReport .dropped q f) →
      t = { s with response := some r }

/-- No instruction stops the machine: every meaning answers a next state for every operand and every state. For a command 00_scope R12 says
so: commands are total on every operand value. That an event which is not enabled is a step too is the model's choice (log entry 8), as are the
packet-type rows as instructions (log entry 7), and that an event leaves no response on the port is one (log entry 5). -/
def Obligations.EveryInstructionCompletes : Prop :=
  ∀ (i : Instr) (s : State), ∃ t, exec i s = .next t ∧ (t.response = none ↔ isEvent i = true)

/-- Who writes which register (10_state, the access summary R36): KEY and KEY_VALID only KEYB and KEYN, SEQ only SEND, the TX log only SEND
and FIRE, which add one frame at the end at most, the RNG port only MKACK; the straps and the schedule nothing. -/
def Obligations.WritersOfEachRegister : Prop :=
  ∀ (i : Instr) (s t : State), exec i s = .next t →
    t.cfg = s.cfg ∧ t.sched = s.sched
    ∧ (t.key ≠ s.key ∨ t.keyValid ≠ s.keyValid → (∃ k, i = .keyb k) ∨ (∃ n, i = .keyn n))
    ∧ (t.seq ≠ s.seq → ∃ v, i = .send v)
    ∧ (t.tx ≠ s.tx → ((∃ v, i = .send v) ∨ (∃ q, i = .fire q)) ∧ ∃ f, t.tx = s.tx ++ [f])
    ∧ (t.rng ≠ s.rng → ∃ r o, i = .mkack r o)

/-- Who changes the window (43_window R171, derived there): only WADD and SEND add, only WACK and WCLEAR remove, only WRETIME, TICK and FIRE
write a timer of an entry that stays, and no instruction changes a stored packet. -/
def Obligations.WritersOfTheWindow : Prop :=
  ∀ (i : Instr) (s t : State) (q : SeqId), exec i s = .next t →
    (lookup s.window q = none → lookup t.window q ≠ none → (∃ v timer, i = .wadd v timer) ∨ (∃ v, i = .send v))
    ∧ (∀ e, lookup s.window q = some e → lookup t.window q = none → (∃ p, i = .wack p) ∨ i = .wclear)
    ∧ (∀ e g, lookup s.window q = some e → lookup t.window q = some g → g.pkt = e.pkt
      ∧ (g.timer ≠ e.timer → (∃ timer, i = .wretime q timer) ∨ i = .tick ∨ i = .fire q))

/-- Every step keeps the invariant (10_state R39, 43_window R171, 70_reset R232): valid straps, a canonical window of at most CAP
serialisable packets, and a key whenever the window is not empty. -/
def Obligations.StepKeepsInvariant : Prop :=
  ∀ s t : State, StateInv s → step s = .next t → StateInv t

/-- The invariant holds at reset, whatever the OPEN parameters are (the straps: log entries 3, 4). -/
def Obligations.InvariantHoldsAtReset : Prop := StateInv State.reset

/-- The state after power-on (10_state R46; 00_scope, section 4). KEY_VALID is 0, SEQ 0, the window and the TX log are empty, and the parameters
have their strapped values. Which values those are is the model's choice: the defaults of R7 (log entry 3), with the OPEN parameters free values
(log entry 4). KEY is unspecified: nothing is said of it, and while it may not be read, whatever stands there, a command that needs it is
refused. -/
def Obligations.ResetState : Prop :=
  State.reset.keyValid = false ∧ State.reset.seq = 0 ∧ State.reset.window = [] ∧ count State.reset = 0 ∧ State.reset.tx = []
  ∧ State.reset.cfg = Config.strapped
  ∧ State.reset.cfg.version = 0 ∧ State.reset.cfg.sigLen = 4 ∧ State.reset.cfg.seqReset = 0
  ∧ State.reset.cfg.cap = 5 ∧ State.reset.cfg.maxFrame = 65553 ∧ State.reset.cfg.fullDropsUntracked = true
  ∧ State.reset.cfg.fNeedAck = 0x004 ∧ State.reset.cfg.tSyn = 0 ∧ 1 ≤ State.reset.cfg.rtoTicks
  ∧ State.reset.cfg.dataAckSig.length = 4
  ∧ (∀ (k : Byte) (b : Bytes), exec (.csum b) { State.reset with key := k } = .next (replied { State.reset with key := k } 0x11 0 .nothing))

/-- The RESET input in any state (70_reset R230, R231, R233): every register at its reset value, every timer gone, the straps kept. The model's
choices: KEY reads 0 (log entry 1); the response port shows none (log entry 5); what the RNG port has delivered and the schedule, of which RESET
is an input, are outside the block (log entries 2, 6). -/
def Obligations.ResetInputClearsState : Prop :=
  ∀ (s : State) (rest : List Input), cfgValid s.cfg = true → s.sched = .reset :: rest →
    step s = .next { cfg := s.cfg, key := 0, keyValid := false, seq := 0, window := [], tx := [], response := none, rng := s.rng, sched := rest }

/-- KEY_VALID is cleared only by reset (10_state, control and status registers). RESET as an input on the schedule is the model's form (log
entry 6). -/
def Obligations.OnlyResetClearsKeyValid : Prop :=
  ∀ s t : State, step s = .next t → s.keyValid = true → t.keyValid = false → ∃ rest, s.sched = .reset :: rest

/-- Outputs are not read (10_state R29, R43): what an instruction does depends neither on the last response nor on the TX log. The statement
compares two runs, and two things in it are the model's choice: both runs draw the same bytes, since they draw from the same counter (log entry
2, for MKACK with a signature that is not supplied), and the last response is a field of the state (log entry 5). -/
def Obligations.OutputsAreNotRead : Prop :=
  ∀ (i : Instr) (s t : State), exec i s = .next t →
    (∀ r, exec i { s with response := r } = .next t)
    ∧ ∃ fs, t.tx = s.tx ++ fs ∧ ∀ log, exec i { s with tx := log } = .next { t with tx := log ++ fs }

/-- The key is read by nothing but the commands that rule R36 names (10_state, the access summary): any other instruction does the same
under any key, the key register aside. The statement compares two runs, and two things in it are the model's choice: both runs draw the same
bytes, since they draw from the same counter (log entry 2, for MKACK with a signature that is not supplied), and a packet-type row that
serialises reads the key as SER does (log entry 7). -/
def Obligations.KeyReaders : Prop :=
  ∀ (i : Instr) (s t : State) (k : Byte), exec i s = .next t →
    (∀ b, i ≠ .csum b) → (∀ f, i ≠ .cver f) → (∀ v, i ≠ .ser v) → (∀ v, i ≠ .send v) → (∀ q, i ≠ .fire q) →
    (∀ b, i ≠ .keyb b) → (∀ n, i ≠ .keyn n) →
    (∀ flags v, i ≠ .syn flags (.serialise v) ∧ i ≠ .connect flags (.serialise v) ∧ i ≠ .data flags (.serialise v)
      ∧ i ≠ .disconnect flags (.serialise v) ∧ i ≠ .ping flags (.serialise v)) →
      exec i { s with key := k } = .next { t with key := k }

/-- No rule depends on TICK_PERIOD (00_scope, section 4): a step does the same under any length of a TICK, the parameter itself aside. The
statement compares two runs; that both draw the same bytes is the model's choice (log entry 2), as are the parameters as a field of the state
(log entry 3) and TICKs without time (log entry 11). -/
def Obligations.TickPeriodIsNotRead : Prop :=
  ∀ (s t : State) (p : Nat), step s = .next t →
    step { s with cfg := { s.cfg with tickPeriod := p } } = .next { t with cfg := { t.cfg with tickPeriod := p } }

/-- Which statuses each row can end with, and of which kind each status is (60_exceptions, the tables of R200 and R213; 00_scope R13). That a
packet-type row ends as PARSE or SER does is the model's choice (log entry 7). -/
def Obligations.StatusesSorted : Prop :=
  (∀ (i : Instr) (s t : State) (r : Response), exec i s = .next t → t.response = some r → r.status ∈ statusesOf i)
  ∧ (∀ code : Byte, (statusKind code = some .source ↔ code ∈ ([0x00, 0x01, 0x02, 0x03] : List Byte))
    ∧ (statusKind code = some .refusal ↔ code ∈ ([0x10, 0x11, 0x12, 0x13, 0x14, 0x1F] : List Byte)))

/-- Under the strict reading of 00_scope R13 nothing goes past a refusal: there is a step exactly where the machine has one and the last
response is not UnsupportedVersion, NoKey, PingAckUnimplemented, DupSeq, NotFound or IllegalCommand. That `step` itself goes on is the model's reading
of 60_exceptions R216 and R219 (log entry 9), and that the last response is a field of the state its choice (log entry 5). -/
def Obligations.StrictStepStopsAtRefusals : Prop :=
  ∀ s t : State, strictStep s = some t ↔
    step s = .next t ∧ ∀ r, s.response = some r → r.status ∉ ([0x10, 0x11, 0x12, 0x13, 0x14, 0x1F] : List Byte)
end

