-- ==== Sys2Proof/Laws/State.lean ====
section
/-! SUPPORT. One lemma per field and update of State, true by rfl, and what the shared endings of a meaning answer: later proofs cite these
and do not unfold a record update. -/

namespace Sys2Proof.Machine

open Sys2Proof.Safety

@[simp] theorem emit_cfg (s : State) (f : Bytes) : (emit s f).cfg = s.cfg := rfl
@[simp] theorem emit_key (s : State) (f : Bytes) : (emit s f).key = s.key := rfl
@[simp] theorem emit_keyValid (s : State) (f : Bytes) : (emit s f).keyValid = s.keyValid := rfl
@[simp] theorem emit_seq (s : State) (f : Bytes) : (emit s f).seq = s.seq := rfl
@[simp] theorem emit_window (s : State) (f : Bytes) : (emit s f).window = s.window := rfl
@[simp] theorem emit_tx (s : State) (f : Bytes) : (emit s f).tx = s.tx ++ [f] := rfl
@[simp] theorem emit_response (s : State) (f : Bytes) : (emit s f).response = s.response := rfl
@[simp] theorem emit_rng (s : State) (f : Bytes) : (emit s f).rng = s.rng := rfl
@[simp] theorem emit_sched (s : State) (f : Bytes) : (emit s f).sched = s.sched := rfl

@[simp] theorem afterDraw_cfg (s : State) (n : Nat) : (afterDraw s n).cfg = s.cfg := rfl
@[simp] theorem afterDraw_key (s : State) (n : Nat) : (afterDraw s n).key = s.key := rfl
@[simp] theorem afterDraw_keyValid (s : State) (n : Nat) : (afterDraw s n).keyValid = s.keyValid := rfl
@[simp] theorem afterDraw_seq (s : State) (n : Nat) : (afterDraw s n).seq = s.seq := rfl
@[simp] theorem afterDraw_window (s : State) (n : Nat) : (afterDraw s n).window = s.window := rfl
@[simp] theorem afterDraw_tx (s : State) (n : Nat) : (afterDraw s n).tx = s.tx := rfl
@[simp] theorem afterDraw_response (s : State) (n : Nat) : (afterDraw s n).response = s.response := rfl
@[simp] theorem afterDraw_rng (s : State) (n : Nat) : (afterDraw s n).rng = s.rng + n := rfl
@[simp] theorem afterDraw_sched (s : State) (n : Nat) : (afterDraw s n).sched = s.sched := rfl

@[simp] theorem setWindow_cfg (s : State) (w : Window) : (setWindow s w).cfg = s.cfg := rfl
@[simp] theorem setWindow_key (s : State) (w : Window) : (setWindow s w).key = s.key := rfl
@[simp] theorem setWindow_keyValid (s : State) (w : Window) : (setWindow s w).keyValid = s.keyValid := rfl
@[simp] theorem setWindow_seq (s : State) (w : Window) : (setWindow s w).seq = s.seq := rfl
@[simp] theorem setWindow_window (s : State) (w : Window) : (setWindow s w).window = w := rfl
@[simp] theorem setWindow_tx (s : State) (w : Window) : (setWindow s w).tx = s.tx := rfl
@[simp] theorem setWindow_response (s : State) (w : Window) : (setWindow s w).response = s.response := rfl
@[simp] theorem setWindow_rng (s : State) (w : Window) : (setWindow s w).rng = s.rng := rfl
@[simp] theorem setWindow_sched (s : State) (w : Window) : (setWindow s w).sched = s.sched := rfl

@[simp] theorem setSeq_cfg (s : State) (q : SeqId) : (setSeq s q).cfg = s.cfg := rfl
@[simp] theorem setSeq_key (s : State) (q : SeqId) : (setSeq s q).key = s.key := rfl
@[simp] theorem setSeq_keyValid (s : State) (q : SeqId) : (setSeq s q).keyValid = s.keyValid := rfl
@[simp] theorem setSeq_seq (s : State) (q : SeqId) : (setSeq s q).seq = q := rfl
@[simp] theorem setSeq_window (s : State) (q : SeqId) : (setSeq s q).window = s.window := rfl
@[simp] theorem setSeq_tx (s : State) (q : SeqId) : (setSeq s q).tx = s.tx := rfl
@[simp] theorem setSeq_response (s : State) (q : SeqId) : (setSeq s q).response = s.response := rfl
@[simp] theorem setSeq_rng (s : State) (q : SeqId) : (setSeq s q).rng = s.rng := rfl
@[simp] theorem setSeq_sched (s : State) (q : SeqId) : (setSeq s q).sched = s.sched := rfl

@[simp] theorem loadKey_cfg (s : State) (k : Byte) : (loadKey s k).cfg = s.cfg := rfl
@[simp] theorem loadKey_key (s : State) (k : Byte) : (loadKey s k).key = k := rfl
@[simp] theorem loadKey_keyValid (s : State) (k : Byte) : (loadKey s k).keyValid = true := rfl
@[simp] theorem loadKey_seq (s : State) (k : Byte) : (loadKey s k).seq = s.seq := rfl
@[simp] theorem loadKey_window (s : State) (k : Byte) : (loadKey s k).window = s.window := rfl
@[simp] theorem loadKey_tx (s : State) (k : Byte) : (loadKey s k).tx = s.tx := rfl
@[simp] theorem loadKey_response (s : State) (k : Byte) : (loadKey s k).response = s.response := rfl
@[simp] theorem loadKey_rng (s : State) (k : Byte) : (loadKey s k).rng = s.rng := rfl
@[simp] theorem loadKey_sched (s : State) (k : Byte) : (loadKey s k).sched = s.sched := rfl

@[simp] theorem respond_cfg (s : State) (r : Response) : (respond s r).cfg = s.cfg := rfl
@[simp] theorem respond_key (s : State) (r : Response) : (respond s r).key = s.key := rfl
@[simp] theorem respond_keyValid (s : State) (r : Response) : (respond s r).keyValid = s.keyValid := rfl
@[simp] theorem respond_seq (s : State) (r : Response) : (respond s r).seq = s.seq := rfl
@[simp] theorem respond_window (s : State) (r : Response) : (respond s r).window = s.window := rfl
@[simp] theorem respond_tx (s : State) (r : Response) : (respond s r).tx = s.tx := rfl
@[simp] theorem respond_response (s : State) (r : Response) : (respond s r).response = some r := rfl
@[simp] theorem respond_rng (s : State) (r : Response) : (respond s r).rng = s.rng := rfl
@[simp] theorem respond_sched (s : State) (r : Response) : (respond s r).sched = s.sched := rfl

@[simp] theorem silent_cfg (s : State) : (silent s).cfg = s.cfg := rfl
@[simp] theorem silent_key (s : State) : (silent s).key = s.key := rfl
@[simp] theorem silent_keyValid (s : State) : (silent s).keyValid = s.keyValid := rfl
@[simp] theorem silent_seq (s : State) : (silent s).seq = s.seq := rfl
@[simp] theorem silent_window (s : State) : (silent s).window = s.window := rfl
@[simp] theorem silent_tx (s : State) : (silent s).tx = s.tx := rfl
@[simp] theorem silent_response (s : State) : (silent s).response = none := rfl
@[simp] theorem silent_rng (s : State) : (silent s).rng = s.rng := rfl
@[simp] theorem silent_sched (s : State) : (silent s).sched = s.sched := rfl

@[simp] theorem setSched_cfg (s : State) (rest : List Input) : (setSched s rest).cfg = s.cfg := rfl
@[simp] theorem setSched_key (s : State) (rest : List Input) : (setSched s rest).key = s.key := rfl
@[simp] theorem setSched_keyValid (s : State) (rest : List Input) : (setSched s rest).keyValid = s.keyValid := rfl
@[simp] theorem setSched_seq (s : State) (rest : List Input) : (setSched s rest).seq = s.seq := rfl
@[simp] theorem setSched_window (s : State) (rest : List Input) : (setSched s rest).window = s.window := rfl
@[simp] theorem setSched_tx (s : State) (rest : List Input) : (setSched s rest).tx = s.tx := rfl
@[simp] theorem setSched_response (s : State) (rest : List Input) : (setSched s rest).response = s.response := rfl
@[simp] theorem setSched_rng (s : State) (rest : List Input) : (setSched s rest).rng = s.rng := rfl
@[simp] theorem setSched_sched (s : State) (rest : List Input) : (setSched s rest).sched = rest := rfl

@[simp] theorem resetInput_cfg (s : State) : (resetInput s).cfg = s.cfg := rfl
@[simp] theorem resetInput_key (s : State) : (resetInput s).key = 0 := rfl
@[simp] theorem resetInput_keyValid (s : State) : (resetInput s).keyValid = false := rfl
@[simp] theorem resetInput_seq (s : State) : (resetInput s).seq = s.cfg.seqReset := rfl
@[simp] theorem resetInput_window (s : State) : (resetInput s).window = [] := rfl
@[simp] theorem resetInput_tx (s : State) : (resetInput s).tx = [] := rfl
@[simp] theorem resetInput_response (s : State) : (resetInput s).response = none := rfl
@[simp] theorem resetInput_rng (s : State) : (resetInput s).rng = s.rng := rfl
@[simp] theorem resetInput_sched (s : State) : (resetInput s).sched = s.sched := rfl

@[simp] theorem replied_cfg (s : State) (a b : Byte) (r : Result) : (replied s a b r).cfg = s.cfg := rfl
@[simp] theorem replied_key (s : State) (a b : Byte) (r : Result) : (replied s a b r).key = s.key := rfl
@[simp] theorem replied_keyValid (s : State) (a b : Byte) (r : Result) : (replied s a b r).keyValid = s.keyValid := rfl
@[simp] theorem replied_seq (s : State) (a b : Byte) (r : Result) : (replied s a b r).seq = s.seq := rfl
@[simp] theorem replied_window (s : State) (a b : Byte) (r : Result) : (replied s a b r).window = s.window := rfl
@[simp] theorem replied_tx (s : State) (a b : Byte) (r : Result) : (replied s a b r).tx = s.tx := rfl
@[simp] theorem replied_response (s : State) (a b : Byte) (r : Result) : (replied s a b r).response = some { status := a, cause := b, result := r } := rfl
@[simp] theorem replied_rng (s : State) (a b : Byte) (r : Result) : (replied s a b r).rng = s.rng := rfl
@[simp] theorem replied_sched (s : State) (a b : Byte) (r : Result) : (replied s a b r).sched = s.sched := rfl

/-- Taking an exception is a reply with its code and cause. -/
theorem raise_eq (x : Exception) (s : State) : raise x s = .next (replied s (statusCode x) (statusCause x) .nothing) := rfl

/-- The normal end of a command is a reply with status 0. -/
theorem done_eq (r : Result) (s : State) : done r s = .next (replied s 0 0 r) := rfl

/-- A command that changes nothing but the port replies: the exception, or its results. -/
theorem answer_eq (r : Except Exception Result) (s : State) :
    answer r s = .next (match r with
      | .error x => replied s (statusCode x) (statusCause x) .nothing
      | .ok res => replied s 0 0 res) := by
  cases r <;> rfl

/-- Valid straps have the fixed values of rule R7, which the commands' rules write as numbers. -/
theorem cfgValid_fixed {c : Cfg} (h : cfgValid c = true) : c.version = 0 ∧ c.sigLen = 4 ∧ c.seqReset = 0 := by
  simp only [cfgValid, fixedValues, Bool.and_eq_true, beq_iff_eq] at h
  exact ⟨h.1.1.1.1.1.1.1.1.1.1.1, h.1.1.1.1.1.1.1.1.1.1.2, h.1.1.1.1.1.1.1.1.1.2⟩

/-- No exception has the status code of OK (rule R200). -/
theorem statusCode_ne_zero (x : Exception) : statusCode x ≠ 0 := by
  cases x <;> simp [statusCode]

end Sys2Proof.Machine
end

