-- ==== Sys2Proof/Laws/Checksum.lean ====
section
/-! SUPPORT. The checksum function in numbers (spec/41_checksum.md rules R120, R121): what a word is worth, that the wrapping sum is the sum
reduced once, and how it splits at a word boundary. -/

namespace Sys2Proof.Machine

/-- A little-endian word is the number of its four bytes (rule R10). -/
theorem le32At_toNat (b : Bytes) (i : Nat) :
    (le32At b i).toNat = (byteAt b i).toNat + 256 * (byteAt b (i + 1)).toNat + 65536 * (byteAt b (i + 2)).toNat
      + 16777216 * (byteAt b (i + 3)).toNat := by
  have h0 := (byteAt b i).isLt
  have h1 := (byteAt b (i + 1)).isLt
  have h2 := (byteAt b (i + 2)).isLt
  have h3 := (byteAt b (i + 3)).isLt
  rw [le32At, BitVec.toNat_ofNat, Nat.mod_eq_of_lt]
  omega

/-- Wrapping sums reduce once at the end (rule R121). -/
theorem foldl_add_toNat (f : Nat → BitVec 32) (l : List Nat) (a : BitVec 32) :
    (l.foldl (fun acc i => acc + f i) a).toNat = (a.toNat + (l.map (fun i => (f i).toNat)).sum) % 4294967296 := by
  induction l generalizing a with
  | nil => simp; omega
  | cons x l ih => simp [ih]; omega

/-- `S` in numbers. -/
theorem wordSum_toNat (b : Bytes) :
    (wordSum b).toNat = ((List.range (b.length / 4)).map (fun i => (le32At b (4 * i)).toNat)).sum % 4294967296 := by
  simp [wordSum, foldl_add_toNat]

/-- `C` in numbers. -/
theorem laneSum_toNat (w : BitVec 32) :
    laneSum w = w.toNat % 256 + w.toNat / 256 % 256 + w.toNat / 65536 % 256 + w.toNat / 16777216 := by
  have := w.isLt
  simp only [laneSum, byteSum, le32, List.map_cons, List.map_nil, List.sum_cons, List.sum_nil, BitVec.toNat_ofNat]
  omega

/-- `le32` writes a word as its four bytes, the low one first (rule R10). -/
theorem le32_toNat (v : BitVec 32) :
    (le32 v).map BitVec.toNat = [v.toNat % 256, v.toNat / 256 % 256, v.toNat / 65536 % 256, v.toNat / 16777216] := by
  have := v.isLt
  simp only [le32, List.map_cons, List.map_nil, BitVec.toNat_ofNat, List.cons.injEq, and_true, true_and]
  omega

@[simp] theorem le32_length (v : BitVec 32) : (le32 v).length = 4 := rfl

/-- Reading what `le32` writes gives the word back. -/
@[simp] theorem le32At_le32 (v : BitVec 32) : le32At (le32 v) 0 = v := by
  apply BitVec.eq_of_toNat_eq
  have := v.isLt
  simp [le32At_toNat, byteAt, le32]
  omega

theorem byteAt_append_left {a : Bytes} (c : Bytes) {i : Nat} (h : i < a.length) : byteAt (a ++ c) i = byteAt a i := by
  simp [byteAt, List.getElem?_append_left h]

theorem byteAt_append_right (a c : Bytes) (i : Nat) : byteAt (a ++ c) (a.length + i) = byteAt c i := by
  rw [byteAt, List.getD_append_right _ _ _ _ (by omega)]
  simp [byteAt]

theorem le32At_append_left {a : Bytes} (c : Bytes) {i : Nat} (h : i + 3 < a.length) : le32At (a ++ c) i = le32At a i := by
  rw [le32At, le32At, byteAt_append_left c (by omega), byteAt_append_left c (by omega), byteAt_append_left c (by omega),
    byteAt_append_left c (by omega)]

theorem le32At_append_right (a c : Bytes) (i : Nat) : le32At (a ++ c) (a.length + i) = le32At c i := by
  simp only [le32At, Nat.add_assoc, byteAt_append_right]

/-- A wrapping sum is its start plus the sum of the list. -/
theorem foldl_add_eq (f : Nat → BitVec 32) (l : List Nat) (x : BitVec 32) : l.foldl (fun acc i => acc + f i) x = x + (l.map f).sum := by
  induction l generalizing x with
  | nil => simp
  | cons y l ih => simp [ih, BitVec.add_assoc]

/-- `S` splits at a word boundary (rule R56). -/
theorem wordSum_append {a : Bytes} (c : Bytes) (h : a.length % 4 = 0) : wordSum (a ++ c) = wordSum a + wordSum c := by
  have hl : (a ++ c).length / 4 = a.length / 4 + c.length / 4 := by simp; omega
  simp only [wordSum, hl, foldl_add_eq, List.range_add, List.map_append, List.sum_append, List.map_map, zero_add]
  congr 2
  · refine List.map_congr_left (fun i hi => le32At_append_left c ?_)
    have := List.mem_range.1 hi
    omega
  · refine List.map_congr_left (fun i _ => ?_)
    show le32At (a ++ c) (4 * (a.length / 4 + i)) = _
    rw [show 4 * (a.length / 4 + i) = a.length + 4 * i by omega, le32At_append_right]

/-- `R` of a string is that of what follows a word boundary. -/
theorem remainderSum_append {a : Bytes} (c : Bytes) (h : a.length % 4 = 0) : remainderSum (a ++ c) = remainderSum c := by
  have : 4 * ((a ++ c).length / 4) = a.length + 4 * (c.length / 4) := by simp; omega
  rw [remainderSum, this, List.drop_append, List.drop_eq_nil_of_le (by omega), Nat.add_sub_cancel_left]
  rfl

end Sys2Proof.Machine
end

