-- ==== Sys2Proof/Laws/Window.lean ====
section
/-! SUPPORT. What the operations on the window do: how each reads back, that each keeps the canonical form, and how each changes the
number of entries (spec/10_state.md rules R34, R38, R39). -/

namespace Sys2Proof.Machine

/-! The empty window. -/

@[simp] theorem lookup_nil (q : SeqId) : lookup [] q = none := rfl

theorem lookup_cons (x : Entry) (w : Window) (q : SeqId) :
    lookup (x :: w) q = if x.pkt.seq = q then some x else lookup w q := by
  by_cases h : x.pkt.seq = q <;> simp [lookup, h]

/-- An entry that is found lies in the window, under its own key. -/
theorem lookup_some {w : Window} {q : SeqId} {e : Entry} (h : lookup w q = some e) : e ∈ w ∧ e.pkt.seq = q := by
  refine ⟨List.mem_of_find?_eq_some h, ?_⟩
  simpa using List.find?_some h

/-- A key with no entry. -/
theorem lookup_none_iff {w : Window} {q : SeqId} : lookup w q = none ↔ ∀ e ∈ w, e.pkt.seq ≠ q := by
  simp [lookup]

/-- In a canonical window an entry is what its key reads as. -/
theorem lookup_of_mem {w : Window} (hw : Window.wf w) {e : Entry} (h : e ∈ w) : lookup w e.pkt.seq = some e := by
  induction w with
  | nil => cases h
  | cons x w ih =>
    obtain ⟨hx, hw⟩ := List.pairwise_cons.1 hw
    rw [lookup_cons]
    rcases List.mem_cons.1 h with rfl | h
    · simp
    · have := hx e h
      rw [if_neg (fun heq => by rw [heq] at this; omega), ih hw h]

/-! Writing an entry. -/

theorem mem_put {w : Window} {e x : Entry} (h : x ∈ put w e) : x = e ∨ x ∈ w := by
  induction w with
  | nil => simpa [put] using h
  | cons y w ih =>
    simp only [put] at h
    split at h
    · simpa using h
    · split at h
      · rcases List.mem_cons.1 h with h | h
        · exact .inl h
        · exact .inr (List.mem_cons_of_mem _ h)
      · rcases List.mem_cons.1 h with h | h
        · exact .inr (h ▸ List.mem_cons_self)
        · exact (ih h).imp_right (List.mem_cons_of_mem _)

/-- The key written reads as the entry written. -/
@[simp] theorem lookup_put_self (w : Window) (e : Entry) : lookup (put w e) e.pkt.seq = some e := by
  induction w with
  | nil => simp [put, lookup_cons]
  | cons x w ih =>
    simp only [put]
    split
    · simp [lookup_cons]
    · rename_i hlt
      split
      · simp [lookup_cons]
      · rename_i hne
        rw [lookup_cons, if_neg (fun h => hne h.symm), ih]

/-- Every other key reads as before. -/
theorem lookup_put_other (w : Window) (e : Entry) {q : SeqId} (h : e.pkt.seq ≠ q) : lookup (put w e) q = lookup w q := by
  induction w with
  | nil => simp [put, lookup_cons, h]
  | cons x w ih =>
    simp only [put]
    split
    · simp [lookup_cons, h]
    · split
      · rename_i heq
        simp [lookup_cons, h, ← heq]
      · simp [lookup_cons, ih]

/-- Writing keeps the canonical form. -/
theorem wf_put {w : Window} (hw : Window.wf w) (e : Entry) : Window.wf (put w e) := by
  induction w with
  | nil => simp [put, Window.wf]
  | cons x w ih =>
    obtain ⟨hx, hw'⟩ := List.pairwise_cons.1 hw
    simp only [put]
    split
    · rename_i hlt
      refine List.pairwise_cons.2 ⟨fun y hy => ?_, hw⟩
      rcases List.mem_cons.1 hy with rfl | hy
      · exact hlt
      · exact hlt.trans (hx y hy)
    · rename_i hlt
      split
      · rename_i heq
        exact List.pairwise_cons.2 ⟨fun y hy => by rw [heq]; exact hx y hy, hw'⟩
      · rename_i hne
        refine List.pairwise_cons.2 ⟨fun y hy => ?_, ih hw'⟩
        rcases mem_put hy with rfl | hy
        · have : x.pkt.seq.toNat ≠ y.pkt.seq.toNat := fun h => hne (BitVec.eq_of_toNat_eq h.symm)
          omega
        · exact hx y hy

/-- Writing a key that has no entry adds one. -/
theorem length_put {w : Window} {e : Entry} (h : lookup w e.pkt.seq = none) : (put w e).length = w.length + 1 := by
  induction w with
  | nil => rfl
  | cons x w ih =>
    rw [lookup_cons] at h
    split at h
    · cases h
    · rename_i hne
      simp only [put]
      split
      · rfl
      · rw [if_neg (fun heq => hne heq.symm)]
        simp [ih h]

theorem put_ne_nil (w : Window) (e : Entry) : put w e ≠ [] := by
  cases w with
  | nil => simp [put]
  | cons x w =>
    simp only [put]
    split
    · simp
    · split <;> simp

/-! Removing an entry. -/

theorem mem_remove {w : Window} {q : SeqId} {x : Entry} : x ∈ remove w q ↔ x ∈ w ∧ x.pkt.seq ≠ q := by
  simp [remove]

/-- The key removed reads as none. -/
@[simp] theorem lookup_remove_self (w : Window) (q : SeqId) : lookup (remove w q) q = none :=
  lookup_none_iff.2 (fun _ h => (mem_remove.1 h).2)

/-- Every other key reads as before. -/
theorem lookup_remove_other (w : Window) {q r : SeqId} (h : q ≠ r) : lookup (remove w q) r = lookup w r := by
  induction w with
  | nil => rfl
  | cons x w ih =>
    by_cases hx : x.pkt.seq = q
    · have : remove (x :: w) q = remove w q := by simp [remove, hx]
      rw [this, ih, lookup_cons, if_neg (hx ▸ h)]
    · have : remove (x :: w) q = x :: remove w q := by simp [remove, hx]
      rw [this, lookup_cons, lookup_cons, ih]

/-- Removing keeps the canonical form. -/
theorem wf_remove {w : Window} (hw : Window.wf w) (q : SeqId) : Window.wf (remove w q) := List.Pairwise.filter _ hw

theorem length_remove_le (w : Window) (q : SeqId) : (remove w q).length ≤ w.length := List.length_filter_le _ _

/-- Removing a key that has no entry changes nothing. -/
theorem remove_of_none {w : Window} {q : SeqId} (h : lookup w q = none) : remove w q = w := by
  simpa [remove] using lookup_none_iff.1 h

/-- In a canonical window exactly one entry goes. -/
theorem length_remove {w : Window} (hw : Window.wf w) {q : SeqId} {e : Entry} (h : lookup w q = some e) :
    (remove w q).length + 1 = w.length := by
  induction w with
  | nil => cases h
  | cons x w ih =>
    obtain ⟨hx, hw⟩ := List.pairwise_cons.1 hw
    rw [lookup_cons] at h
    split at h
    · rename_i heq
      have hnone : lookup w q = none := lookup_none_iff.2 (fun y hy hq => by
        have := hx y hy
        rw [hq, heq] at this
        omega)
      have : remove (x :: w) q = remove w q := by simp [remove, heq]
      rw [this, remove_of_none hnone, List.length_cons]
    · rename_i hne
      have : remove (x :: w) q = x :: remove w q := by simp [remove, hne]
      simp [this, ih hw h]

/-! Writing timers. -/

/-- An update of every entry that keeps its key reads back entry by entry. -/
theorem lookup_map {f : Entry → Entry} (hf : ∀ e, (f e).pkt.seq = e.pkt.seq) (w : Window) (q : SeqId) :
    lookup (w.map f) q = (lookup w q).map f := by
  induction w with
  | nil => rfl
  | cons x w ih =>
    rw [List.map_cons, lookup_cons, lookup_cons, hf, ih]
    split <;> rfl

/-- An update of every entry that keeps its key keeps the canonical form. -/
theorem wf_map {f : Entry → Entry} (hf : ∀ e, (f e).pkt.seq = e.pkt.seq) {w : Window} (hw : Window.wf w) : Window.wf (w.map f) := by
  simpa [Window.wf, List.pairwise_map, hf] using hw

/-- A TICK leaves the packet. -/
@[simp] theorem tickEntry_pkt (e : Entry) : (tickEntry e).pkt = e.pkt := by
  unfold tickEntry
  split <;> rfl

/-- What a TICK does to a timer: none stays none, 0 stays 0, anything else counts down. -/
theorem tickEntry_timer (e : Entry) : (tickEntry e).timer = e.timer.map (· - 1) := by
  unfold tickEntry
  split
  · rename_i t h
    simp [h]
  · rename_i h
    rcases ht : e.timer with _ | _ | t
    · rfl
    · rfl
    · exact absurd ht (h t)

theorem wf_tick {w : Window} (hw : Window.wf w) : Window.wf (w.map tickEntry) := wf_map (by simp) hw

theorem lookup_tick (w : Window) (q : SeqId) : lookup (w.map tickEntry) q = (lookup w q).map tickEntry := lookup_map (by simp) w q

theorem wf_retime {w : Window} (hw : Window.wf w) (q : SeqId) (timer : Option Nat) : Window.wf (retime w q timer) :=
  wf_map (fun e => by split <;> rfl) hw

theorem lookup_retime (w : Window) (q r : SeqId) (timer : Option Nat) :
    lookup (retime w q timer) r = (lookup w r).map (fun e => if e.pkt.seq = q then { e with timer := timer } else e) :=
  lookup_map (fun e => by split <;> rfl) w r

/-- The key re-timed. -/
theorem lookup_retime_self {w : Window} {q : SeqId} {e : Entry} (h : lookup w q = some e) (timer : Option Nat) :
    lookup (retime w q timer) q = some { e with timer := timer } := by
  rw [lookup_retime, h]
  simp [(lookup_some h).2]

/-- Every other key. -/
theorem lookup_retime_other (w : Window) {q r : SeqId} (h : q ≠ r) (timer : Option Nat) :
    lookup (retime w q timer) r = lookup w r := by
  rw [lookup_retime]
  rcases hr : lookup w r with _ | e
  · rfl
  · have := (lookup_some hr).2
    simp [this, Ne.symm h]

@[simp] theorem length_retime (w : Window) (q : SeqId) (timer : Option Nat) : (retime w q timer).length = w.length := by
  simp [retime]

theorem mem_retime {w : Window} {q : SeqId} {timer : Option Nat} {x : Entry} (h : x ∈ retime w q timer) :
    ∃ y ∈ w, y.pkt = x.pkt := by
  obtain ⟨y, hy, rfl⟩ := List.mem_map.1 h
  exact ⟨y, hy, by split <;> rfl⟩

/-- Re-timing an entry does not show once it is removed. -/
theorem remove_retime (w : Window) (q : SeqId) (timer : Option Nat) : remove (retime w q timer) q = remove w q := by
  induction w with
  | nil => rfl
  | cons x w ih =>
    simp only [remove, retime, List.map_cons, List.filter_cons] at *
    by_cases hx : x.pkt.seq = q <;> simp [hx, ih]

/-- Re-timing two keys to the same value: the order does not show. -/
theorem retime_comm (w : Window) {q r : SeqId} (h : q ≠ r) (timer : Option Nat) :
    retime (retime w q timer) r timer = retime (retime w r timer) q timer := by
  simp only [retime, List.map_map]
  refine List.map_congr_left (fun x _ => ?_)
  simp only [Function.comp]
  by_cases h1 : x.pkt.seq = q <;> by_cases h2 : x.pkt.seq = r <;> simp [h1, h2, h, Ne.symm h]

/-! The canonical form is canonical. -/

/-- Canonical windows that read alike are equal. -/
theorem window_ext {v w : Window} (hv : Window.wf v) (hw : Window.wf w) (h : ∀ q, lookup v q = lookup w q) : v = w := by
  have sub : ∀ {v w : Window}, Window.wf v → (∀ q, lookup v q = lookup w q) → v ⊆ w := fun hv h e he =>
    (lookup_some ((h _).symm.trans (lookup_of_mem hv he))).1
  refine (List.perm_of_nodup_nodup_toFinset_eq ?_ ?_ ?_).eq_of_pairwise ?_ hv hw
  · exact hv.imp (fun hab heq => by subst heq; omega)
  · exact hw.imp (fun hab heq => by subst heq; omega)
  · ext e
    simp only [List.mem_toFinset]
    exact ⟨fun he => sub hv h he, fun he => sub hw (fun q => (h q).symm) he⟩
  · intro a b _ _ hab hba
    omega

/-- The window of the reset state is canonical. -/
theorem wf_reset : Window.wf State.reset.window := List.Pairwise.nil

end Sys2Proof.Machine
end

