-- ==== Sys2Proof/Laws/Wire.lean ====
section
/-! SUPPORT. The type+flags word and the byte order undo themselves; what the fields of a frame read as; and the one lemma that says
all that reading a frame can do (spec/30_encoding.md rules R70 to R79, spec/40_codec_wire.md rule R104). -/

namespace Sys2Proof.Machine

open Sys2Proof.Safety

/-! The type+flags word (rule R79). -/

@[simp] theorem tfFlags_typeFlagsWord (f : FlagSet) (t : TypeCode) : tfFlags (typeFlagsWord f t) = f := by
  unfold tfFlags typeFlagsWord
  apply BitVec.eq_of_getLsbD_eq
  intro i hi
  simp [hi]
  grind

@[simp] theorem tfType_typeFlagsWord (f : FlagSet) (t : TypeCode) : tfType (typeFlagsWord f t) = t := by
  unfold tfType typeFlagsWord
  apply BitVec.eq_of_getLsbD_eq
  intro i hi
  simp [hi]
  omega

@[simp] theorem typeFlagsWord_eta (tf : BitVec 16) : typeFlagsWord (tfFlags tf) (tfType tf) = tf := by
  unfold tfType tfFlags typeFlagsWord
  apply BitVec.eq_of_getLsbD_eq
  intro i hi
  simp [hi]
  grind

theorem typeFlagsWord_toNat (f : FlagSet) (t : TypeCode) : (typeFlagsWord f t).toNat = 16 * f.toNat + t.toNat := by
  have ht := t.isLt
  have hf := f.isLt
  simp only [typeFlagsWord, BitVec.toNat_or, BitVec.toNat_shiftLeft, BitVec.toNat_setWidth, Nat.shiftLeft_eq]
  have e1 : f.toNat % 2 ^ 16 * 2 ^ 4 % 2 ^ 16 = 2 ^ 4 * f.toNat := by omega
  have e2 : t.toNat % 2 ^ 16 = t.toNat := by omega
  rw [e1, e2, ← Nat.two_pow_add_eq_or_of_lt ht f.toNat]

/-! Byte order (rule R10). -/

@[simp] theorem le16_length (v : BitVec 16) : (le16 v).length = 2 := rfl

/-- Reading back what was written at the end of a prefix. -/
theorem le16At_append (a : Bytes) (v : BitVec 16) (r : Bytes) : le16At (a ++ (le16 v ++ r)) a.length = v := by
  apply BitVec.eq_of_toNat_eq
  have := v.isLt
  simp [le16At, byteAt, le16]
  omega

/-- Writing back the two bytes that were read. -/
theorem le16_le16At (b : Bytes) (i : Nat) : le16 (le16At b i) = [byteAt b i, byteAt b (i + 1)] := by
  have h0 := (byteAt b i).isLt
  have h1 := (byteAt b (i + 1)).isLt
  simp only [le16, le16At]
  congr 1
  · apply BitVec.eq_of_toNat_eq
    simp
    omega
  · congr 1
    apply BitVec.eq_of_toNat_eq
    simp
    omega

/-! Flags and types. -/

theorem hasFlag_eq_true {f m : FlagSet} : hasFlag f m = true ↔ f &&& m ≠ 0 := by simp [hasFlag]

theorem hasFlag_eq_false {f m : FlagSet} : hasFlag f m = false ↔ f &&& m = 0 := by simp [hasFlag]

/-- The type codes of valid straps are distinct (rule R8). -/
theorem types_distinct {c : Cfg} (h : cfgValid c = true) :
    c.tSyn ≠ c.tConnect ∧ c.tSyn ≠ c.tData ∧ c.tSyn ≠ c.tDisconnect ∧ c.tSyn ≠ c.tPing ∧ c.tConnect ≠ c.tData
    ∧ c.tConnect ≠ c.tDisconnect ∧ c.tConnect ≠ c.tPing ∧ c.tData ≠ c.tDisconnect ∧ c.tData ≠ c.tPing ∧ c.tDisconnect ≠ c.tPing := by
  simp [cfgValid, typeCodes, allDistinct] at h
  tauto

theorem bodyFormat_sig {c : Cfg} {t : TypeCode} : bodyFormat c t = .sig ↔ t = c.tSyn ∨ t = c.tConnect := by
  unfold bodyFormat
  split
  · exact iff_of_true rfl ‹_›
  · split
    · exact iff_of_false (by simp) ‹_›
    · exact iff_of_false (by simp) ‹_›

theorem bodyFormat_frag {c : Cfg} (h : cfgValid c = true) {t : TypeCode} : bodyFormat c t = .frag ↔ t = c.tData := by
  have hd := types_distinct h
  unfold bodyFormat
  split
  · rename_i hs
    rcases hs with rfl | rfl <;> simp [hd]
  · split
    · exact iff_of_true rfl ‹_›
    · exact iff_of_false (by simp) ‹_›

theorem tailOption_size {c : Cfg} {f : FlagSet} (body : BodyFormat) (h : f &&& c.fHasSize ≠ 0) : tailOption c body f = .size := by
  rw [tailOption, if_pos (hasFlag_eq_true.2 h)]

theorem tailOption_rest {c : Cfg} {f : FlagSet} (h : f &&& c.fHasSize = 0) (ha : f &&& c.fAck = 0) : tailOption c .frag f = .rest := by
  rw [tailOption, if_neg (by rw [hasFlag_eq_true]; exact not_not.2 h), if_pos ⟨rfl, hasFlag_eq_false.2 ha⟩]

theorem tailOption_nothing {c : Cfg} {f : FlagSet} {body : BodyFormat} (h : f &&& c.fHasSize = 0)
    (ha : body = .frag → f &&& c.fAck ≠ 0) : tailOption c body f = .nothing := by
  rw [tailOption, if_neg (by rw [hasFlag_eq_true]; exact not_not.2 h), if_neg]
  rintro ⟨hb, hf⟩
  exact ha hb (hasFlag_eq_false.1 hf)

/-! The fields of a frame. -/

section Frame

variable (src dst : Byte) (tf : BitVec 16) (sid : Byte) (sig : Bytes) (q : SeqId) (mid : Bytes) (ck : Byte)

/-- The frame byte by byte, up to what lies between the common header and the checksum byte. -/
theorem frameWith_cons {s0 s1 s2 s3 : Byte} (h : sig = [s0, s1, s2, s3]) :
    frameWith src dst tf sid sig q mid ck
      = src :: dst :: BitVec.ofNat 8 tf.toNat :: BitVec.ofNat 8 (tf.toNat / 256) :: sid :: s0 :: s1 :: s2 :: s3
        :: BitVec.ofNat 8 q.toNat :: BitVec.ofNat 8 (q.toNat / 256) :: (mid ++ [ck]) := by
  subst h
  rfl

variable {sig}

theorem sig_cons (h : sig.length = 4) : ∃ s0 s1 s2 s3, sig = [s0, s1, s2, s3] := by
  obtain _ | ⟨s0, _ | ⟨s1, _ | ⟨s2, _ | ⟨s3, _ | ⟨s4, r⟩⟩⟩⟩⟩ := sig <;> simp at h
  exact ⟨_, _, _, _, rfl⟩

theorem frameWith_length (h : sig.length = 4) : (frameWith src dst tf sid sig q mid ck).length = 12 + mid.length := by
  simp [frameWith, h]
  omega

/-- Every buffer of at least 12 bytes is such a frame. -/
theorem exists_frameWith {buf : Bytes} (h : 12 ≤ buf.length) :
    ∃ src dst tf sid sig q mid ck, sig.length = 4 ∧ buf = frameWith src dst tf sid sig q mid ck := by
  obtain ⟨mid', ck, rfl⟩ : ∃ m x, buf = m ++ [x] :=
    ⟨buf.dropLast, buf.getLast (List.ne_nil_of_length_pos (by omega)), (List.dropLast_append_getLast _).symm⟩
  rw [List.length_append] at h
  obtain ⟨b0, b1, b2, b3, b4, b5, b6, b7, b8, b9, b10, mid, rfl⟩ :
      ∃ b0 b1 b2 b3 b4 b5 b6 b7 b8 b9 b10 mid, mid' = b0 :: b1 :: b2 :: b3 :: b4 :: b5 :: b6 :: b7 :: b8 :: b9 :: b10 :: mid := by
    obtain _ | ⟨b0, _ | ⟨b1, _ | ⟨b2, _ | ⟨b3, _ | ⟨b4, _ | ⟨b5, _ | ⟨b6, _ | ⟨b7, _ | ⟨b8, _ | ⟨b9, _ | ⟨b10, mid⟩⟩⟩⟩⟩⟩⟩⟩⟩⟩⟩ := mid' <;>
      try (simp at h; done)
    exact ⟨_, _, _, _, _, _, _, _, _, _, _, _, rfl⟩
  refine ⟨b0, b1, le16At [b2, b3] 0, b4, [b5, b6, b7, b8], le16At [b9, b10] 0, mid, ck, rfl, ?_⟩
  simp [frameWith, le16_le16At, byteAt]

theorem byteAt_frameWith_0 : byteAt (frameWith src dst tf sid sig q mid ck) 0 = src := rfl

theorem byteAt_frameWith_1 : byteAt (frameWith src dst tf sid sig q mid ck) 1 = dst := rfl

theorem le16At_frameWith_2 : le16At (frameWith src dst tf sid sig q mid ck) 2 = tf := by
  have := le16At_append [src, dst] tf ([sid] ++ sig ++ le16 q ++ mid ++ [ck])
  simpa [frameWith] using this

theorem le16At_frameWith_9 (h : sig.length = 4) : le16At (frameWith src dst tf sid sig q mid ck) 9 = q := by
  have := le16At_append ([src, dst] ++ le16 tf ++ [sid] ++ sig) q (mid ++ [ck])
  simpa [frameWith, h] using this

theorem slice_frameWith_5 (h : sig.length = 4) : slice (frameWith src dst tf sid sig q mid ck) 5 4 = sig := by
  obtain ⟨s0, s1, s2, s3, rfl⟩ := sig_cons h
  rfl

/-- Past the common header the bytes are those of `mid`. -/
theorem byteAt_frameWith (h : sig.length = 4) {i : Nat} (hi : i < mid.length) :
    byteAt (frameWith src dst tf sid sig q mid ck) (11 + i) = byteAt mid i := by
  obtain ⟨s0, s1, s2, s3, rfl⟩ := sig_cons h
  rw [frameWith_cons _ _ _ _ _ _ _ _ rfl, Nat.add_comm]
  simp [byteAt, List.getElem?_append_left hi]

theorem le16At_frameWith (h : sig.length = 4) {i : Nat} (hi : i + 2 ≤ mid.length) :
    le16At (frameWith src dst tf sid sig q mid ck) (11 + i) = le16At mid i := by
  unfold le16At
  rw [byteAt_frameWith _ _ _ _ _ _ _ h (by omega), Nat.add_assoc, byteAt_frameWith _ _ _ _ _ _ _ h (by omega)]

theorem slice_frameWith (h : sig.length = 4) {i k : Nat} (hi : i + k ≤ mid.length) :
    slice (frameWith src dst tf sid sig q mid ck) (11 + i) k = slice mid i k := by
  obtain ⟨s0, s1, s2, s3, rfl⟩ := sig_cons h
  rw [frameWith_cons _ _ _ _ _ _ _ _ rfl, Nat.add_comm]
  simp only [slice, List.drop_succ_cons]
  rw [List.drop_append_of_le_length (by omega), List.take_append_of_le_length (by simp; omega)]

/-- The last byte is the checksum byte. -/
theorem byteAt_frameWith_last (h : sig.length = 4) :
    byteAt (frameWith src dst tf sid sig q mid ck) (11 + mid.length) = ck := by
  obtain ⟨s0, s1, s2, s3, rfl⟩ := sig_cons h
  rw [frameWith_cons _ _ _ _ _ _ _ _ rfl, Nat.add_comm]
  simp [byteAt]

theorem readHeader_frameWith (h : sig.length = 4) :
    readHeader (frameWith src dst tf sid sig q mid ck) = headerPacket src dst tf sid sig q 0 := by
  unfold readHeader
  rw [byteAt_frameWith_0, byteAt_frameWith_1, le16At_frameWith_2, le16At_frameWith_9 _ _ _ _ _ _ _ h, slice_frameWith_5 _ _ _ _ _ _ _ h]
  rfl

theorem lacks_frameWith (h : sig.length = 4) (i k : Nat) :
    lacks (frameWith src dst tf sid sig q mid ck) (11 + i) k = decide (mid.length < i + k) := by
  simp [lacks, frameWith_length _ _ _ _ _ _ _ h]
  omega

end Frame

/-- The packet with the body's field taken from the first bytes of `mid`. -/
def withBody (body : BodyFormat) (mid : Bytes) (v : Packet) : Packet :=
  match body with
  | .sig => { v with connSig := slice mid 0 4 }
  | .frag => { v with fragId := byteAt mid 0 }
  | .bare => v

/-- All that reading a frame can do, in terms of what lies between the common header and the checksum byte (rule R104). -/
theorem readFields_frameWith (src dst : Byte) (tf : BitVec 16) (sid : Byte) {sig : Bytes} (q : SeqId) (mid : Bytes) (ck : Byte)
    (h : sig.length = 4) (body : BodyFormat) (tail : TailOption) :
    readFields body tail (frameWith src dst tf sid sig q mid ck)
      = if mid.length < bodyLength body then .error (.parseError .short)
        else match tail with
          | .size =>
            if mid.length < bodyLength body + 2 then .error (.parseError .short)
            else if mid.length < bodyLength body + 2 + (le16At mid (bodyLength body)).toNat then .error (.parseError .short)
            else if mid.length ≠ bodyLength body + 2 + (le16At mid (bodyLength body)).toNat then .error (.parseError .length)
            else .ok { withBody body mid (headerPacket src dst tf sid sig q ck) with
              payload := slice mid (bodyLength body + 2) (le16At mid (bodyLength body)).toNat }
          | .rest =>
            .ok { withBody body mid (headerPacket src dst tf sid sig q ck) with
              payload := slice mid (bodyLength body) (mid.length - bodyLength body) }
          | .nothing =>
            if mid.length ≠ bodyLength body then .error (.parseError .length)
            else .ok (withBody body mid (headerPacket src dst tf sid sig q ck)) := by
  set F := frameWith src dst tf sid sig q mid ck with hF
  have hlen : F.length - 1 = 11 + mid.length := by
    rw [hF, frameWith_length _ _ _ _ _ _ _ h]
    omega
  have hlast : byteAt F (11 + mid.length) = ck := byteAt_frameWith_last _ _ _ _ _ _ _ h
  have hbody : readBody body F (readHeader F)
      = if mid.length < bodyLength body then .error (.parseError .short)
        else .ok (withBody body mid (headerPacket src dst tf sid sig q 0), 11 + bodyLength body) := by
    rw [hF, readHeader_frameWith _ _ _ _ _ _ _ h]
    cases body with
    | sig =>
      have h1 := lacks_frameWith src dst tf sid q mid ck h 0 4
      simp only [readBody, bodyLength, withBody]
      rw [show (11 : Nat) = 11 + 0 from rfl, h1]
      by_cases hl : mid.length < 4
      · simp [hl]
      · rw [slice_frameWith _ _ _ _ _ _ _ h (by omega)]
        simp [hl]
    | frag =>
      have h1 := lacks_frameWith src dst tf sid q mid ck h 0 1
      simp only [readBody, bodyLength, withBody]
      rw [show (11 : Nat) = 11 + 0 from rfl, h1]
      by_cases hl : mid.length < 1
      · simp [hl]
      · rw [byteAt_frameWith _ _ _ _ _ _ _ h (by omega)]
        simp [hl]
    | bare => simp [readBody, bodyLength, withBody]
  unfold readFields
  rw [hbody]
  split
  · rename_i hx
    split at hx
    · rw [if_pos ‹_›]
      cases hx
      rfl
    · cases hx
  · rename_i v off hx
    split at hx
    · cases hx
    · rename_i hl
      rw [if_neg hl]
      cases hx
      cases tail with
      | nothing =>
        simp only [readTail, hlen, hlast]
        by_cases hm : mid.length = bodyLength body
        · simp only [hm, ne_eq, not_true_eq_false, if_false]
          cases body <;> rfl
        · rw [if_pos (by omega), if_pos hm]
      | rest =>
        simp only [readTail, hlen, hlast, ne_eq, not_true_eq_false, if_false]
        rw [show 11 + mid.length - (11 + bodyLength body) = mid.length - bodyLength body by omega, hF,
          slice_frameWith _ _ _ _ _ _ _ h (by omega)]
        cases body <;> rfl
      | size =>
        simp only [readTail, hlen]
        rw [hF, lacks_frameWith _ _ _ _ _ _ _ h]
        by_cases h2 : mid.length < bodyLength body + 2
        · simp [h2]
        · rw [le16At_frameWith _ _ _ _ _ _ _ h (by omega), show 11 + bodyLength body + 2 = 11 + (bodyLength body + 2) from rfl,
            lacks_frameWith _ _ _ _ _ _ _ h, if_neg (by simpa using h2), if_neg h2]
          by_cases h3 : mid.length < bodyLength body + 2 + (le16At mid (bodyLength body)).toNat
          · simp [h3]
          · rw [if_neg (by simpa using h3), if_neg h3, slice_frameWith _ _ _ _ _ _ _ h (by omega)]
            simp only [← hF, hlast]
            by_cases h4 : mid.length = bodyLength body + 2 + (le16At mid (bodyLength body)).toNat
            · rw [if_neg (by omega), if_neg (by simpa using h4)]
              cases body <;> rfl
            · rw [if_pos (by omega), if_pos h4]

/-! Byte strings. -/

theorem slice_prefix {a : Bytes} (b : Bytes) {n : Nat} (h : a.length = n) : slice (a ++ b) 0 n = a := by
  simp [slice, ← h]

theorem slice_suffix (a b : Bytes) {n k : Nat} (h : a.length = n) (hk : b.length = k) : slice (a ++ b) n k = b := by
  simp [slice, ← h, ← hk]

/-- A byte string is its first `n` bytes and the rest. -/
theorem slice_append_slice (b : Bytes) (n : Nat) : slice b 0 n ++ slice b n (b.length - n) = b := by
  simp [slice, List.take_of_length_le]

@[simp] theorem slice_length (b : Bytes) (i k : Nat) : (slice b i k).length = min k (b.length - i) := by simp [slice]

@[simp] theorem sizedPayload_length (pl : Bytes) : (sizedPayload pl).length = 2 + pl.length := by simp [sizedPayload]

/-- The size field reads as the length of the payload (rule R80). -/
theorem le16At_sizedPayload (a : Bytes) {pl : Bytes} {n : Nat} (h : a.length = n) (hp : pl.length ≤ 65535) :
    (le16At (a ++ sizedPayload pl) n).toNat = pl.length := by
  rw [← h, sizedPayload, le16At_append]
  simp
  omega

theorem slice_sizedPayload (a pl : Bytes) {n : Nat} (h : a.length = n) :
    slice (a ++ sizedPayload pl) (n + 2) pl.length = pl := by
  have := slice_suffix (a ++ le16 (BitVec.ofNat 16 pl.length)) pl (n := n + 2) (k := pl.length) (by simp [h]) rfl
  simpa [sizedPayload] using this

/-! Reading what was written, and writing what was read. -/

theorem bodyBytes_length {body : BodyFormat} {v : Packet} (h : body = .sig → v.connSig.length = 4) :
    (bodyBytes body v).length = bodyLength body := by
  cases body with
  | sig => exact h rfl
  | frag => rfl
  | bare => rfl

/-- A frame whose middle is a body and a tail reads as that body and that tail, with defaults elsewhere (rules R104, R106). -/
theorem readFields_encoded (src dst : Byte) (tf : BitVec 16) (sid : Byte) {sig : Bytes} (q : SeqId) (ck : Byte) (h : sig.length = 4)
    (body : BodyFormat) (tail : TailOption) (v : Packet) (hb : body = .sig → v.connSig.length = 4)
    (ht : tail = .size → v.payload.length ≤ 65535) :
    readFields body tail (frameWith src dst tf sid sig q (bodyBytes body v ++ tailBytes tail v) ck)
      = .ok { headerPacket src dst tf sid sig q ck with
          fragId := if body = .frag then v.fragId else 0
          connSig := if body = .sig then v.connSig else [0, 0, 0, 0]
          payload := if tail = .nothing then [] else v.payload } := by
  have hbl := bodyBytes_length (v := v) hb
  have hwith : withBody body (bodyBytes body v ++ tailBytes tail v) (headerPacket src dst tf sid sig q ck)
      = { headerPacket src dst tf sid sig q ck with
          fragId := if body = .frag then v.fragId else 0
          connSig := if body = .sig then v.connSig else [0, 0, 0, 0] } := by
    cases body with
    | sig =>
      simp only [withBody, bodyBytes]
      rw [slice_prefix _ (hb rfl)]
      rfl
    | frag => rfl
    | bare => rfl
  rw [readFields_frameWith _ _ _ _ _ _ _ h, hwith, List.length_append, hbl,
    if_neg (show ¬ bodyLength body + (tailBytes tail v).length < bodyLength body by omega)]
  cases tail with
  | nothing => exact if_neg (not_not.2 rfl)
  | rest =>
    have e : slice (bodyBytes body v ++ tailBytes .rest v) (bodyLength body)
        (bodyLength body + (tailBytes .rest v).length - bodyLength body) = v.payload := by
      rw [Nat.add_sub_cancel_left]
      exact slice_suffix _ _ hbl rfl
    rw [e]
    rfl
  | size =>
    have e1 : (le16At (bodyBytes body v ++ tailBytes .size v) (bodyLength body)).toNat = v.payload.length :=
      le16At_sizedPayload _ hbl (ht rfl)
    have e2 : slice (bodyBytes body v ++ tailBytes .size v) (bodyLength body + 2) v.payload.length = v.payload :=
      slice_sizedPayload _ _ hbl
    have el : (tailBytes .size v).length = 2 + v.payload.length := sizedPayload_length v.payload
    refine (if_neg (by omega)).trans ((if_neg (by omega)).trans ((if_neg (by omega)).trans ?_))
    rw [e1, e2]
    rfl

/-- What reading a frame answers encodes to the bytes that were read (rule R108). -/
theorem readFields_ok (src dst : Byte) (tf : BitVec 16) (sid : Byte) {sig : Bytes} (q : SeqId) (mid : Bytes) (ck : Byte) (h : sig.length = 4)
    (body : BodyFormat) (tail : TailOption) {v : Packet}
    (hv : readFields body tail (frameWith src dst tf sid sig q mid ck) = .ok v) :
    mid = bodyBytes body v ++ tailBytes tail v ∧ (body = .sig → v.connSig.length = 4)
    ∧ (tail = .size → v.payload.length ≤ 65535)
    ∧ v = { headerPacket src dst tf sid sig q ck with
          fragId := if body = .frag then v.fragId else 0
          connSig := if body = .sig then v.connSig else [0, 0, 0, 0]
          payload := if tail = .nothing then [] else v.payload } := by
  rw [readFields_frameWith _ _ _ _ _ _ _ h] at hv
  split at hv
  · cases hv
  rename_i hl
  have hfirst : ∀ pl, bodyBytes body { withBody body mid (headerPacket src dst tf sid sig q ck) with payload := pl }
      = slice mid 0 (bodyLength body) := by
    intro pl
    cases body with
    | sig => rfl
    | frag =>
      obtain _ | ⟨x, r⟩ := mid
      · simp [bodyLength] at hl
      · rfl
    | bare => simp [bodyBytes, slice, bodyLength]
  have hsig : ∀ pl, body = .sig →
      ({ withBody body mid (headerPacket src dst tf sid sig q ck) with payload := pl } : Packet).connSig.length = 4 := by
    rintro pl rfl
    simp only [bodyLength, Nat.not_lt] at hl
    simp [withBody]
    omega
  have hrec : ∀ pl, ({ withBody body mid (headerPacket src dst tf sid sig q ck) with payload := pl } : Packet)
      = { headerPacket src dst tf sid sig q ck with
          fragId := if body = .frag then (withBody body mid (headerPacket src dst tf sid sig q ck)).fragId else 0
          connSig := if body = .sig then (withBody body mid (headerPacket src dst tf sid sig q ck)).connSig else [0, 0, 0, 0]
          payload := pl } := by
    intro pl
    cases body <;> rfl
  cases tail with
  | nothing =>
    simp only at hv
    split at hv
    · cases hv
    · rename_i hm
      have hself : withBody body mid (headerPacket src dst tf sid sig q ck)
          = { withBody body mid (headerPacket src dst tf sid sig q ck) with payload := [] } := by
        cases body <;> rfl
      cases hv
      refine ⟨?_, ?_, by simp, ?_⟩
      · rw [hself, hfirst]
        simp [tailBytes, slice]
        omega
      · rw [hself]
        exact hsig []
      · simpa using hself.trans (hrec [])
  | rest =>
    simp only at hv
    cases hv
    refine ⟨?_, hsig _, by simp, hrec (slice mid (bodyLength body) (mid.length - bodyLength body))⟩
    rw [hfirst]
    exact (slice_append_slice _ _).symm
  | size =>
    simp only at hv
    split at hv
    · cases hv
    split at hv
    · cases hv
    split at hv
    · cases hv
    rename_i h2 h3 h4
    have h16 := (le16At mid (bodyLength body)).isLt
    have hpl : (slice mid (bodyLength body + 2) (le16At mid (bodyLength body)).toNat).length
        = (le16At mid (bodyLength body)).toNat := by
      rw [slice_length]
      omega
    cases hv
    refine ⟨?_, hsig _, fun _ => ?_, hrec (slice mid (bodyLength body + 2) (le16At mid (bodyLength body)).toNat)⟩
    · rw [hfirst]
      simp only [tailBytes]
      rw [hpl, show BitVec.ofNat 16 (le16At mid (bodyLength body)).toNat = le16At mid (bodyLength body) by simp, le16_le16At]
      have hm : mid.length = bodyLength body + 2 + (le16At mid (bodyLength body)).toNat := by simpa using h4
      have e1 := (slice_append_slice mid (bodyLength body)).symm
      have e2 : slice mid (bodyLength body) (mid.length - bodyLength body)
          = [byteAt mid (bodyLength body), byteAt mid (bodyLength body + 1)]
            ++ slice mid (bodyLength body + 2) (le16At mid (bodyLength body)).toNat := by
        rw [show mid.length - bodyLength body = (le16At mid (bodyLength body)).toNat + 2 by omega]
        simp only [slice, byteAt]
        rw [List.drop_eq_getElem_cons (by omega), List.drop_eq_getElem_cons (by omega), List.take_succ_cons, List.take_succ_cons,
          List.getD_eq_getElem _ _ (by omega), List.getD_eq_getElem _ _ (by omega)]
        rfl
      rw [← e2]
      exact e1
    · simp only
      omega

theorem isChannel_eq_true {b : Byte} : isChannel b = true ↔ inChannelRange b := by simp [isChannel, inChannelRange]

/-- A frame with both channels in range has version 0 and at least 12 bytes (rule R100). -/
theorem checkLead_frameWith {src dst : Byte} (tf : BitVec 16) (sid : Byte) {sig : Bytes} (q : SeqId) (mid : Bytes) (ck : Byte)
    (h : sig.length = 4) (hs : inChannelRange src) (hd : inChannelRange dst) :
    checkLead (frameWith src dst tf sid sig q mid ck) = .ok () := by
  have hl := frameWith_length src dst tf sid q mid ck h
  unfold checkLead detectVersion
  rw [byteAt_frameWith_0, byteAt_frameWith_1, isChannel_eq_true.2 hs, isChannel_eq_true.2 hd, if_neg (by omega)]
  simp [hl]

/-- What passes the check of the lead is a frame with both channels in range. -/
theorem checkLead_ok {buf : Bytes} (h : checkLead buf = .ok ()) :
    ∃ src dst tf sid sig q mid ck, sig.length = 4 ∧ inChannelRange src ∧ inChannelRange dst
      ∧ buf = frameWith src dst tf sid sig q mid ck := by
  unfold checkLead at h
  split at h
  · cases h
  · rename_i ver tagged hv
    split at h
    · cases h
    · split at h
      · cases h
      · rename_i ht hl
        obtain ⟨src, dst, tf, sid, sig, q, mid, ck, hsig, rfl⟩ := exists_frameWith (buf := buf) (by omega)
        refine ⟨src, dst, tf, sid, sig, q, mid, ck, hsig, ?_⟩
        rw [detectVersion, if_neg (by omega), byteAt_frameWith_0, byteAt_frameWith_1] at hv
        by_cases hc : (isChannel src && isChannel dst) = true
        · simp only [Bool.and_eq_true, isChannel_eq_true] at hc
          exact ⟨hc.1, hc.2, rfl⟩
        · rw [if_neg hc] at hv
          by_cases hg : src = 0xEA ∧ dst = 0xD0
          · rw [if_pos hg, if_neg (by omega)] at hv
            cases hv
            exact absurd rfl ht
          · rw [if_neg hg] at hv
            cases hv

/-! The length of an encoding. -/

theorem headerBytes_length {v : Packet} (h : v.pktSig.length = 4) : (headerBytes v).length = 11 := by
  simp [headerBytes, h]

/-- A packet whose field checks pass has signatures of length 4 where they are written, no payload without a slot, a payload that fits
its size field, and a frame that fits the buffer (rule R109). -/
theorem fieldFault_none {c : Cfg} {v : Packet} (h : fieldFault c v = none) :
    v.pktSig.length = 4 ∧ (bodyFormat c v.type = .sig → v.connSig.length = 4)
    ∧ (tailOption c (bodyFormat c v.type) v.flags = .nothing → v.payload = [])
    ∧ (tailOption c (bodyFormat c v.type) v.flags = .size → v.payload.length ≤ 65535) ∧ frameLength c v ≤ c.maxFrame := by
  unfold fieldFault at h
  split at h
  · cases h
  split at h
  · cases h
  split at h
  · cases h
  split at h
  · cases h
  split at h
  · cases h
  rename_i h1 h2 h3 h4 h5
  refine ⟨by simpa [Config.sigLen] using h1, fun hb => by simpa [hb, Config.sigLen] using h2, fun ht => by simpa [ht] using h3, fun ht => by simpa [ht] using h4, by omega⟩

theorem isSerialisable_iff {c : Cfg} {v : Packet} : isSerialisable c v = true ↔ v.version = 0 ∧ fieldFault c v = none := by
  simp [isSerialisable, Config.version]

/-- The frame of a serialisable packet has the length of rule R74. -/
theorem frameOf_length {c : Cfg} {v : Packet} (h : fieldFault c v = none) (k : Byte) : (frameOf c k v).length = frameLength c v := by
  obtain ⟨hp, hb, ht, _, _⟩ := fieldFault_none h
  unfold frameOf encodePacket frameLength
  rw [List.length_append, List.length_append, List.length_append, headerBytes_length hp]
  have hbody : (bodyBytes (bodyFormat c v.type) v).length = bodyLength (bodyFormat c v.type) := by
    cases hf : bodyFormat c v.type with
    | sig => exact hb hf
    | frag => rfl
    | bare => rfl
  have htail : (tailBytes (tailOption c (bodyFormat c v.type) v.flags) v).length
      = tailLength v.payload.length (tailOption c (bodyFormat c v.type) v.flags) := by
    cases hf : tailOption c (bodyFormat c v.type) v.flags with
    | size => simp [tailBytes, tailLength]
    | rest => rfl
    | nothing => rfl
  rw [hbody, htail]
  rfl

end Sys2Proof.Machine
end

