-- ==== Sys2Proof/Laws/Exec.lean ====
section
/-! SUPPORT. Everything an instruction can do, said once: `exec_cases` lists the next states, each meaning's own lemma says which it has.
Later proofs cite these and do not unfold a meaning. -/

namespace Sys2Proof.Machine

open Sys2Proof.Safety

/-- A command that changes nothing but the response port. -/
theorem answer_next (r : Except Exception Result) (s : State) : ∃ x, answer r s = .next (respond s x) := by
  cases r with
  | error x => exact ⟨_, rfl⟩
  | ok x => exact ⟨_, rfl⟩

/-- A packet-type row changes nothing but the response port. -/
theorem applyFormat_next (type : TypeCode) (body : BodyFormat) (flags : FlagSet) (use : FormatUse) (s : State) :
    ∃ x, applyFormat type body flags use s = .next (respond s x) := by
  cases use with
  | parse src dst rest => exact answer_next _ s
  | serialise v => exact answer_next _ s

/-- MKACK answers, and draws four bytes only when it answers an ack. -/
theorem execMkack_next (r : Packet) (o : AckOptions) (s : State) :
    (∃ x, execMkack r o s = .next (respond s x))
    ∨ ∃ a, execMkack r o s = .next (respond (afterDraw s 4) (okResponse (.ack (some a)))) := by
  unfold execMkack
  split
  · exact .inl ⟨_, rfl⟩
  · exact .inl ⟨_, rfl⟩
  · exact .inr ⟨_, rfl⟩
  · exact .inl ⟨_, rfl⟩

/-- A packet that passes the admission checks: a key is loaded and the packet is serialisable. -/
theorem admissionFault_none {s : State} {v : Packet} (h : admissionFault s v = none) :
    s.keyValid = true ∧ isSerialisable s.cfg v = true := by
  unfold admissionFault at h
  split at h
  · cases h
  · rename_i hv
    split at h
    · cases h
    · rename_i hk
      exact ⟨by simpa using hk, isSerialisable_iff.2 ⟨not_not.1 hv, by simpa using h⟩⟩

/-- The admission checks pass for a serialisable packet once a key is loaded. -/
theorem admissionFault_eq_none {s : State} {v : Packet} (hk : s.keyValid = true) (h : isSerialisable s.cfg v = true) :
    admissionFault s v = none := by
  obtain ⟨hv, hf⟩ := isSerialisable_iff.1 h
  unfold admissionFault
  rw [if_neg (fun hn => hn hv), if_neg (by simp [hk]), hf]
  rfl

/-- SER of a packet that passes the checks. -/
theorem serialise_eq {s : State} {v : Packet} (hk : s.keyValid = true) (h : isSerialisable s.cfg v = true) :
    serialise s v = .ok (.frame (frameOf s.cfg s.key v)) := by
  rw [serialise, admissionFault_eq_none hk h]

/-- What a frame SER made says of its packet. -/
theorem serialise_ok {s : State} {v : Packet} {r : Result} (h : serialise s v = .ok r) :
    s.keyValid = true ∧ isSerialisable s.cfg v = true ∧ r = .frame (frameOf s.cfg s.key v) := by
  unfold serialise at h
  split at h
  · cases h
  · rename_i ha
    obtain ⟨hk, hv⟩ := admissionFault_none ha
    injection h with h
    exact ⟨hk, hv, h.symm⟩

/-- A packet of version 0 that a loaded key does not get through the checks: WADD and SEND end as SER does. -/
theorem admissionFault_field {s : State} {v : Packet} (h0 : v.version = 0) (hk : s.keyValid = true) (hv : isSerialisable s.cfg v = false) :
    ∃ x, admissionFault s v = some (.validationError x) ∧ fieldFault s.cfg v = some x := by
  have hne : fieldFault s.cfg v ≠ none := fun h => by
    rw [isSerialisable_iff.2 ⟨h0, h⟩] at hv
    cases hv
  obtain ⟨x, hx⟩ := Option.ne_none_iff_exists'.1 hne
  refine ⟨x, ?_, hx⟩
  rw [admissionFault, if_neg (show ¬ v.version ≠ Config.version from not_not.2 h0), if_neg (by simp [hk]), hx]
  rfl

/-- MKACK once its first four tests are passed (rule R148). -/
theorem buildAck_eq {c : Cfg} {r : Packet} {o : AckOptions} (fresh : Bytes) (h : r.flags &&& c.fNeedAck ≠ 0) (hv : r.version = 0)
    (ht : r.type ∈ typeCodes c) (hs : r.type = c.tSyn ∨ ∃ x, o.sessionId = some x) :
    buildAck c r o fresh = (ackByType c r o fresh).map some := by
  rw [buildAck, if_neg (by simp [hasFlag_eq_true.2 h]), if_neg (show ¬ r.version ≠ Config.version from not_not.2 hv),
    if_neg (not_not.2 ht), if_neg]
  rintro ⟨h3, h4⟩
  rcases hs with hs | ⟨x, hs⟩
  · exact h3 hs
  · rw [h4] at hs
    cases hs

/-- A frame PARSE accepts is a version-0 frame that reads without error. -/
theorem parseFrame_ok {c : Cfg} {buf : Bytes} {v : Packet} (h : parseFrame c buf = .ok v) :
    ∃ src dst tf sid sig q mid ck, sig.length = 4 ∧ inChannelRange src ∧ inChannelRange dst
      ∧ buf = frameWith src dst tf sid sig q mid ck
      ∧ readFields (bodyFormat c (tfType tf)) (tailOption c (bodyFormat c (tfType tf)) (tfFlags tf)) buf = .ok v := by
  unfold parseFrame parseAs at h
  split at h
  · cases h
  · rename_i hl
    obtain ⟨src, dst, tf, sid, sig, q, mid, ck, hs, h1, h2, rfl⟩ := checkLead_ok hl
    rw [le16At_frameWith_2] at h
    exact ⟨src, dst, tf, sid, sig, q, mid, ck, hs, h1, h2, rfl, h⟩

/-- PARSE of a version-0 frame reads its fields by its type and flags. -/
theorem parseFrame_frameWith (c : Cfg) {src dst : Byte} (tf : BitVec 16) (sid : Byte) {sig : Bytes} (q : SeqId) (mid : Bytes) (ck : Byte)
    (h : sig.length = 4) (hs : inChannelRange src) (hd : inChannelRange dst) :
    parseFrame c (frameWith src dst tf sid sig q mid ck)
      = readFields (bodyFormat c (tfType tf)) (tailOption c (bodyFormat c (tfType tf)) (tfFlags tf)) (frameWith src dst tf sid sig q mid ck) := by
  rw [parseFrame, parseAs, checkLead_frameWith _ _ _ _ _ h hs hd, le16At_frameWith_2]

/-- A tracked packet is fresh: neither ACK nor MULTI_ACK, and NEED_ACK or RELIABLE (rules R181, R182). -/
theorem isTracked_eq_true {c : Cfg} {f : FlagSet} :
    isTracked c f = true ↔ f &&& c.fAck = 0 ∧ f &&& c.fMultiAck = 0 ∧ f &&& (c.fNeedAck ||| c.fReliable) ≠ 0 := by
  simp only [isTracked, isFresh, Bool.and_eq_true, Bool.not_eq_true', hasFlag_eq_false, hasFlag_eq_true, and_assoc]

theorem isFresh_eq_true {c : Cfg} {f : FlagSet} : isFresh c f = true ↔ f &&& c.fAck = 0 ∧ f &&& c.fMultiAck = 0 := by
  simp only [isFresh, Bool.and_eq_true, Bool.not_eq_true', hasFlag_eq_false]

/-- TICK is enabled while no entry is expired (rule R191). -/
theorem tickEnabled_eq_true {s : State} : tickEnabled s = true ↔ ∀ e ∈ s.window, e.timer ≠ some 0 := by
  simp [tickEnabled, isExpired]

/-- WADD answers, and stores only a serialisable packet under a free key of a window that is not full, with a key loaded. -/
theorem execWadd_next (v : Packet) (timer : Option Nat) (s : State) :
    ((∃ x, execWadd v timer s = .next (respond s x))
      ∧ ¬ (s.window.length ≠ s.cfg.cap ∧ s.keyValid = true ∧ isSerialisable s.cfg v = true ∧ lookup s.window v.seq = none))
    ∨ (execWadd v timer s = .next (respond (setWindow s (put s.window { pkt := v, timer := timer })) (okResponse (.verdict true)))
      ∧ s.window.length ≠ s.cfg.cap ∧ s.keyValid = true ∧ isSerialisable s.cfg v = true ∧ lookup s.window v.seq = none) := by
  unfold execWadd
  split
  · rename_i hfull
    exact .inl ⟨⟨_, rfl⟩, fun hn => hn.1 (by simpa [isFull, count] using hfull)⟩
  · rename_i hfull
    split
    · rename_i x hx
      refine .inl ⟨⟨_, rfl⟩, fun hn => ?_⟩
      rw [admissionFault_eq_none hn.2.1 hn.2.2.1] at hx
      cases hx
    · rename_i hx
      obtain ⟨hk, hv⟩ := admissionFault_none hx
      split
      · rename_i hin
        exact .inl ⟨⟨_, rfl⟩, fun hn => by rw [hn.2.2.2] at hin; cases hin⟩
      · rename_i hin
        exact .inr ⟨rfl, by simpa [isFull, count] using hfull, hk, hv, by simpa using hin⟩

/-- WACK answers, and removes the entry of the packet's sequence id where there is one. -/
theorem execWack_next (p : Packet) (s : State) :
    (∃ x, execWack p s = .next (respond s x)) ∨ execWack p s = .next (respond (setWindow s (remove s.window p.seq)) (okResponse (.verdict true))) := by
  unfold execWack
  split
  · exact .inr rfl
  · exact .inl ⟨_, rfl⟩

/-- WRETIME answers, and writes the timer of the entry where there is one. -/
theorem execWretime_next (q : SeqId) (timer : Option Nat) (s : State) :
    (∃ x, execWretime q timer s = .next (respond s x))
    ∨ execWretime q timer s = .next (respond (setWindow s (retime s.window q timer)) (okResponse .nothing)) := by
  unfold execWretime
  split
  · exact .inr rfl
  · exact .inl ⟨_, rfl⟩

/-- SEND answers, and reports a frame as sent only when it transmits: a serialisable packet with a key loaded; a tracked one goes to a free key of a window that is not full. -/
theorem execSend_next (v : Packet) (s : State) :
    (∃ x, execSend v s = .next (respond s x) ∧ ∀ q f, x.result ≠ .sendReport .sent q f)
    ∨ (execSend v s = .next (respond (transmit v (assigned s v) s)
          (okResponse (.sendReport .sent (assigned s v).seq (frameOf s.cfg s.key (assigned s v)))))
      ∧ s.keyValid = true ∧ isSerialisable s.cfg (assigned s v) = true
      ∧ (isTracked s.cfg v.flags = true → s.window.length ≠ s.cfg.cap ∧ lookup s.window (assigned s v).seq = none)) := by
  unfold execSend
  split
  · exact .inl ⟨_, rfl, by simp [okResponse]⟩
  · rename_i hd
    split
    · exact .inl ⟨_, rfl, by simp [exceptionResponse]⟩
    · rename_i hx
      obtain ⟨hk, hv⟩ := admissionFault_none hx
      split
      · exact .inl ⟨_, rfl, by simp [exceptionResponse]⟩
      · rename_i hin
        refine .inr ⟨rfl, hk, hv, fun ht => ⟨fun hl => hd ?_, ?_⟩⟩
        · simp [isDropped, isFull, count, hl, ht]
        · simpa [ht] using hin

/-- FIRE is silent, and retransmits an entry that is expired. -/
theorem execFire_next (q : SeqId) (s : State) :
    (execFire q s = .next (silent s) ∧ ∀ e, lookup s.window q = some e → e.timer ≠ some 0)
    ∨ ∃ e, lookup s.window q = some e ∧ e.timer = some 0
      ∧ execFire q s = .next (silent (setWindow (emit s (frameOf s.cfg s.key e.pkt)) (retime s.window q (some s.cfg.rtoTicks)))) := by
  unfold execFire
  rcases hq : lookup s.window q with _ | e
  · exact .inl ⟨rfl, nofun⟩
  · by_cases he : e.timer = some 0
    · exact .inr ⟨e, rfl, he, by simp [isExpired, he]⟩
    · exact .inl ⟨by simp [isExpired, he], fun g hg => by cases hg; exact he⟩

/-- Everything an instruction can do: answer and change nothing else; load the key; draw bytes; write the window; transmit; or, for an
event, be silent, count down, or retransmit. -/
theorem exec_cases {i : Instr} {s t : State} (h : exec i s = .next t) :
    (∃ x, t = respond s x ∧ isEvent i = false)
    ∨ (∃ k x, t = respond (loadKey s k) x ∧ x.status = 0 ∧ x.result = .nothing ∧ ((∃ b, i = .keyb b) ∨ ∃ n, i = .keyn n))
    ∨ (∃ r o a, i = .mkack r o ∧ t = respond (afterDraw s 4) (okResponse (.ack (some a))))
    ∨ (∃ v timer, i = .wadd v timer ∧ s.window.length ≠ s.cfg.cap ∧ s.keyValid = true ∧ isSerialisable s.cfg v = true
        ∧ lookup s.window v.seq = none ∧ t = respond (setWindow s (put s.window { pkt := v, timer := timer })) (okResponse (.verdict true)))
    ∨ (∃ p, i = .wack p ∧ t = respond (setWindow s (remove s.window p.seq)) (okResponse (.verdict true)))
    ∨ (∃ q timer, i = .wretime q timer ∧ t = respond (setWindow s (retime s.window q timer)) (okResponse .nothing))
    ∨ (i = .wclear ∧ t = respond (setWindow s []) (okResponse (.count (count s))))
    ∨ (∃ v u, i = .send v ∧ u = assigned s v ∧ s.keyValid = true ∧ isSerialisable s.cfg u = true
        ∧ (isTracked s.cfg v.flags = true → s.window.length ≠ s.cfg.cap ∧ lookup s.window u.seq = none)
        ∧ t = respond (transmit v u s) (okResponse (.sendReport .sent u.seq (frameOf s.cfg s.key u))))
    ∨ (t = silent s ∧ isEvent i = true)
    ∨ (i = .tick ∧ t = silent (setWindow s (s.window.map tickEntry)))
    ∨ (∃ q e, i = .fire q ∧ lookup s.window q = some e ∧ e.timer = some 0
        ∧ t = silent (setWindow (emit s (frameOf s.cfg s.key e.pkt)) (retime s.window q (some s.cfg.rtoTicks)))) := by
  have reply : ∀ {a : Answer}, a = .next t → (∃ x, a = .next (respond s x)) → isEvent i = false → ∃ x, t = respond s x ∧ isEvent i = false := by
    rintro a rfl ⟨x, hx⟩ hi
    exact ⟨x, by injection hx, hi⟩
  cases i with
  | syn flags use => exact .inl (reply h (applyFormat_next ..) rfl)
  | connect flags use => exact .inl (reply h (applyFormat_next ..) rfl)
  | data flags use => exact .inl (reply h (applyFormat_next ..) rfl)
  | disconnect flags use => exact .inl (reply h (applyFormat_next ..) rfl)
  | ping flags use => exact .inl (reply h (applyFormat_next ..) rfl)
  | vdet buf => exact .inl (reply h (answer_next ..) rfl)
  | parse buf => exact .inl (reply h (answer_next ..) rfl)
  | ser v => exact .inl (reply h (answer_next ..) rfl)
  | keyb k =>
    injection h with h
    exact .inr (.inl ⟨_, _, h.symm, rfl, rfl, .inl ⟨k, rfl⟩⟩)
  | keyn n =>
    injection h with h
    exact .inr (.inl ⟨_, _, h.symm, rfl, rfl, .inr ⟨n, rfl⟩⟩)
  | csum b =>
    refine .inl (reply h ?_ rfl)
    show ∃ x, execCsum b s = _
    unfold execCsum
    split <;> exact ⟨_, rfl⟩
  | cver f =>
    refine .inl (reply h ?_ rfl)
    show ∃ x, execCver f s = _
    unfold execCver
    split
    · exact ⟨_, rfl⟩
    · split <;> exact ⟨_, rfl⟩
  | mksyn l r => exact .inl (reply h ⟨_, rfl⟩ rfl)
  | mkcon l r c p =>
    refine .inl (reply h ?_ rfl)
    show ∃ x, execMkcon l r c p s = _
    unfold execMkcon
    split
    · exact ⟨_, rfl⟩
    · split <;> exact ⟨_, rfl⟩
  | mkack r o =>
    rcases execMkack_next r o s with hx | ⟨a, ha⟩
    · exact .inl (reply h hx rfl)
    · injection h.symm.trans ha with ht
      exact .inr (.inr (.inl ⟨r, o, a, rfl, ht⟩))
  | wfull => exact .inl (reply h ⟨_, rfl⟩ rfl)
  | wadd v timer =>
    rcases execWadd_next v timer s with hx | ⟨ha, h1, h2, h3, h4⟩
    · exact .inl (reply h hx.1 rfl)
    · injection h.symm.trans ha with ht
      exact .inr (.inr (.inr (.inl ⟨v, timer, rfl, h1, h2, h3, h4, ht⟩)))
  | wack p =>
    rcases execWack_next p s with hx | ha
    · exact .inl (reply h hx rfl)
    · injection h.symm.trans ha with ht
      exact .inr (.inr (.inr (.inr (.inl ⟨p, rfl, ht⟩))))
  | wwait q => exact .inl (reply h ⟨_, rfl⟩ rfl)
  | wretime q timer =>
    rcases execWretime_next q timer s with hx | ha
    · exact .inl (reply h hx rfl)
    · injection h.symm.trans ha with ht
      exact .inr (.inr (.inr (.inr (.inr (.inl ⟨q, timer, rfl, ht⟩)))))
  | wclear =>
    injection h with h
    exact .inr (.inr (.inr (.inr (.inr (.inr (.inl ⟨rfl, h.symm⟩))))))
  | send v =>
    rcases execSend_next v s with ⟨x, hx, -⟩ | ⟨ha, h1, h2, h3⟩
    · exact .inl (reply h ⟨x, hx⟩ rfl)
    · injection h.symm.trans ha with ht
      exact .inr (.inr (.inr (.inr (.inr (.inr (.inr (.inl ⟨v, _, rfl, rfl, h1, h2, h3, ht⟩)))))))
  | tick =>
    have h : execTick s = .next t := h
    unfold execTick at h
    split at h <;> injection h with h
    · exact .inr (.inr (.inr (.inr (.inr (.inr (.inr (.inr (.inr (.inl ⟨rfl, h.symm⟩)))))))))
    · exact .inr (.inr (.inr (.inr (.inr (.inr (.inr (.inr (.inl ⟨h.symm, rfl⟩))))))))
  | fire q =>
    rcases execFire_next q s with ⟨hx, -⟩ | ⟨e, h1, h2, ha⟩
    · injection h.symm.trans hx with ht
      exact .inr (.inr (.inr (.inr (.inr (.inr (.inr (.inr (.inl ⟨ht, rfl⟩))))))))
    · injection h.symm.trans ha with ht
      exact .inr (.inr (.inr (.inr (.inr (.inr (.inr (.inr (.inr (.inr ⟨q, e, rfl, h1, h2, ht⟩)))))))))

end Sys2Proof.Machine
end

