-- ==== Sys2Proof/Laws/PerInstr.lean ====
section
/-! SUPPORT. One statement per instruction, about its encoding: the word it is encoded to has the fixed bits of its row of
spec/opcode_table.json (spec/30_encoding.md rules R83, R84, R85), under the straps of the reset state. -/

namespace Sys2Proof.Laws.RowMatch

open Sys2Proof Sys2Proof.Machine

/-- The mask and the match of an instruction's row of spec/opcode_table.json. -/
def rowBits : Instr → Nat × Nat
  | .syn _ _ => (0x000F, 0x0000)
  | .connect _ _ => (0x000F, 0x0001)
  | .data _ _ => (0x000F, 0x0002)
  | .disconnect _ _ => (0x000F, 0x0003)
  | .ping _ _ => (0x000F, 0x0004)
  | .vdet _ => (0xFF, 0x01)
  | .parse _ => (0xFF, 0x02)
  | .ser _ => (0xFF, 0x03)
  | .keyb _ => (0xFF, 0x08)
  | .keyn _ => (0xFF, 0x09)
  | .csum _ => (0xFF, 0x0A)
  | .cver _ => (0xFF, 0x0B)
  | .mksyn _ _ => (0xFF, 0x10)
  | .mkcon _ _ _ _ => (0xFF, 0x11)
  | .mkack _ _ => (0xFF, 0x12)
  | .wfull => (0xFF, 0x20)
  | .wadd _ _ => (0xFF, 0x21)
  | .wack _ => (0xFF, 0x22)
  | .wwait _ => (0xFF, 0x23)
  | .wretime _ _ => (0xFF, 0x24)
  | .wclear => (0xFF, 0x25)
  | .send _ => (0xFF, 0x30)
  | .tick => (0xFF, 0x40)
  | .fire _ => (0xFF, 0x41)

/-- The encoded word has the row's fixed bits. -/
def Statement (i : Instr) : Prop := requestBits (encode Config.strapped i) &&& (rowBits i).1 = (rowBits i).2

/-- The low four bits of a type+flags word are its type, whatever the flags (rule R79). -/
theorem typeFlagsWord_low (flags : FlagSet) (type : TypeCode) : (typeFlagsWord flags type).toNat &&& 0x000F = type.toNat := by
  have := type.isLt
  rw [typeFlagsWord_toNat, show (0x000F : Nat) = 2 ^ 4 - 1 from rfl, Nat.and_two_pow_sub_one_eq_mod]
  omega

theorem syn (flags : FlagSet) (use : FormatUse) : Statement (.syn flags use) := typeFlagsWord_low flags _
theorem connect (flags : FlagSet) (use : FormatUse) : Statement (.connect flags use) := typeFlagsWord_low flags _
theorem data (flags : FlagSet) (use : FormatUse) : Statement (.data flags use) := typeFlagsWord_low flags _
theorem disconnect (flags : FlagSet) (use : FormatUse) : Statement (.disconnect flags use) := typeFlagsWord_low flags _
theorem ping (flags : FlagSet) (use : FormatUse) : Statement (.ping flags use) := typeFlagsWord_low flags _
theorem vdet (buf : Bytes) : Statement (.vdet buf) := by simp [Statement, rowBits, encode, requestBits]
theorem parse (buf : Bytes) : Statement (.parse buf) := by simp [Statement, rowBits, encode, requestBits]
theorem ser (v : Packet) : Statement (.ser v) := by simp [Statement, rowBits, encode, requestBits]
theorem keyb (k : Bytes) : Statement (.keyb k) := by simp [Statement, rowBits, encode, requestBits]
theorem keyn (n : Nat) : Statement (.keyn n) := by simp [Statement, rowBits, encode, requestBits]
theorem csum (b : Bytes) : Statement (.csum b) := by simp [Statement, rowBits, encode, requestBits]
theorem cver (f : Bytes) : Statement (.cver f) := by simp [Statement, rowBits, encode, requestBits]
theorem mksyn (localCh remoteCh : Byte) : Statement (.mksyn localCh remoteCh) := by simp [Statement, rowBits, encode, requestBits]
theorem mkcon (localCh remoteCh : Byte) (connSig pktSig : Bytes) : Statement (.mkcon localCh remoteCh connSig pktSig) := by simp [Statement, rowBits, encode, requestBits]
theorem mkack (r : Packet) (opts : AckOptions) : Statement (.mkack r opts) := by simp [Statement, rowBits, encode, requestBits]
theorem wfull : Statement .wfull := by simp [Statement, rowBits, encode, requestBits]
theorem wadd (v : Packet) (timer : Option Nat) : Statement (.wadd v timer) := by simp [Statement, rowBits, encode, requestBits]
theorem wack (p : Packet) : Statement (.wack p) := by simp [Statement, rowBits, encode, requestBits]
theorem wwait (q : SeqId) : Statement (.wwait q) := by simp [Statement, rowBits, encode, requestBits]
theorem wretime (q : SeqId) (timer : Option Nat) : Statement (.wretime q timer) := by simp [Statement, rowBits, encode, requestBits]
theorem wclear : Statement .wclear := by simp [Statement, rowBits, encode, requestBits]
theorem send (v : Packet) : Statement (.send v) := by simp [Statement, rowBits, encode, requestBits]
theorem tick : Statement .tick := by simp [Statement, rowBits, encode, requestBits]
theorem fire (q : SeqId) : Statement (.fire q) := by simp [Statement, rowBits, encode, requestBits]

end Sys2Proof.Laws.RowMatch
end

