-- ==== Sys2Proof/Tests/Slice0.lean ====
section
/-! SUPPORT. The model's own tests: words written out from spec/30_encoding.md, the vectors of spec/95_test_vectors.md, ill-formed terms, and for
every statement with hypotheses a witness that meets them. Expected results come from the spec's vectors, named in each comment. -/

namespace Sys2Proof.Tests

open Sys2Proof Sys2Proof.Machine Sys2Proof.Safety

/-! The small states the tests run on. -/

/-- The configuration of the vectors: the defaults of rule R7, `RTO_TICKS` = 3 and `DATA_ACK_SIG` = 12 34 56 78. -/
def vectorCfg : Cfg := { Config.strapped with rtoTicks := 3, dataAckSig := [0x12, 0x34, 0x56, 0x78] }

/-- After reset and `KEYN 1`. -/
def ready : State := { State.atReset vectorCfg with key := 1, keyValid := true }

/-- The same with a window. -/
def holding (w : Window) : State := { ready with window := w }

/-- Straps with a window of one entry and a buffer of the shortest frame. -/
def smallCfg : Cfg := { vectorCfg with cap := 1, maxFrame := 12 }

/-- The packet of B1: SYN NEED_ACK, 0xAF to 0xA1. -/
def b1 : Packet := { defaultPacket 0 with src := 0xAF, dst := 0xA1, flags := 0x004 }

/-- The frame of B1, its checksum byte apart. -/
def b1Bytes : Bytes := [0xAF, 0xA1, 0x40, 0, 0, 0, 0, 0, 0, 0, 0, 0, 0, 0, 0]

/-- The packet of B2: the ack of B1. -/
def b2 : Packet :=
  { defaultPacket 0 with src := 0xA1, dst := 0xAF, flags := 0x009, sessionId := 0x5C, connSig := [0xDE, 0xAD, 0xBE, 0xEF] }

/-- The packet of B3: CONNECT NEED_ACK and RELIABLE. -/
def b3 : Packet :=
  { defaultPacket 0 with
    src := 0xAF, dst := 0xA1, type := 1, flags := 0x006, seq := 1, pktSig := [0x11, 0x22, 0x33, 0x44], connSig := [0xDE, 0xAD, 0xBE, 0xEF] }

/-- The packet of B5: DATA with an inferred payload. -/
def b5 : Packet :=
  { defaultPacket 0 with src := 0xAF, dst := 0xA1, type := 2, flags := 0x006, sessionId := 0x5C, seq := 2, payload := [1, 2, 3, 4, 5] }

/-- The packet of B8: DISCONNECT NEED_ACK. -/
def b8 : Packet := { defaultPacket 0 with src := 0xAF, dst := 0xA1, type := 3, flags := 0x004, sessionId := 0x5C, seq := 4 }

/-- `d(q)` of section F: DATA NEED_ACK. -/
def d (q : SeqId) : Packet := { defaultPacket 0 with src := 0xAF, dst := 0xA1, type := 2, flags := 0x004, seq := q }

/-- An entry for `d(q)`. -/
def entry (q : SeqId) (timer : Option Nat) : Entry := { pkt := d q, timer := timer }

/-- The response of an answer. -/
def reply (a : Answer) : Option Response :=
  match a with
  | .next t => t.response
  | .fault _ => none
  | .refused _ => none

/-- A response with status OK. -/
def ok (r : Result) : Option Response := some { status := 0, cause := 0, result := r }

/-- A response with another status. -/
def bad (status cause : Byte) : Option Response := some { status := status, cause := cause, result := .nothing }

/-- SEQ, the window's keys and timers, and the TX log of an answer. -/
def trace (a : Answer) : Option (SeqId × List (SeqId × Option Nat) × List Bytes) :=
  match a with
  | .next t => some (t.seq, t.window.map (fun e => (e.pkt.seq, e.timer)), t.tx)
  | .fault _ => none
  | .refused _ => none

/-! Well-formedness refuses a byte string longer than the frame buffer, for each check (rules R50, R100, R104, R126, R127). -/

theorem test_wf_refuses_vdet : Instr.wf smallCfg (.vdet (List.replicate 13 0)) = false := by decide
theorem test_wf_refuses_parse : Instr.wf smallCfg (.parse (List.replicate 13 0)) = false := by decide
theorem test_wf_refuses_csum : Instr.wf smallCfg (.csum (List.replicate 12 0)) = false := by decide
theorem test_wf_refuses_cver : Instr.wf smallCfg (.cver (List.replicate 13 0)) = false := by decide
theorem test_wf_refuses_syn : Instr.wf smallCfg (.syn 0 (.parse 0 0 (List.replicate 9 0))) = false := by decide
theorem test_wf_refuses_connect : Instr.wf smallCfg (.connect 0 (.parse 0 0 (List.replicate 9 0))) = false := by decide
theorem test_wf_refuses_data : Instr.wf smallCfg (.data 0 (.parse 0 0 (List.replicate 9 0))) = false := by decide
theorem test_wf_refuses_disconnect : Instr.wf smallCfg (.disconnect 0 (.parse 0 0 (List.replicate 9 0))) = false := by decide
theorem test_wf_refuses_ping : Instr.wf smallCfg (.ping 0 (.parse 0 0 (List.replicate 9 0))) = false := by decide

/-! Decoding, each word written out from rules R83 and R84: flags in bits 15..4, the type in bits 3..0; a command's code in 8 bits. -/

theorem test_decode_syn : decodeTableWord 16 0b0000000001000000 = some (.syn 0x004 (.parse 0 0 [])) := by decide
theorem test_decode_connect : decodeTableWord 16 0b0000000001100001 = some (.connect 0x006 (.parse 0 0 [])) := by decide
theorem test_decode_data : decodeTableWord 16 0b0010000010000010 = some (.data 0x208 (.parse 0 0 [])) := by decide
theorem test_decode_disconnect : decodeTableWord 16 0b1111111111110011 = some (.disconnect 0xFFF (.parse 0 0 [])) := by decide
theorem test_decode_ping : decodeTableWord 16 0b0000000001000100 = some (.ping 0x004 (.parse 0 0 [])) := by decide
theorem test_decode_unassigned_type : decodeTableWord 16 0b0000000000000101 = none := by decide
theorem test_decode_vdet : decodeTableWord 8 0b00000001 = some (.vdet []) := by decide
theorem test_decode_parse : decodeTableWord 8 0b00000010 = some (.parse []) := by decide
theorem test_decode_ser : decodeTableWord 8 0b00000011 = some (.ser (defaultPacket 0)) := by decide
theorem test_decode_keyb : decodeTableWord 8 0b00001000 = some (.keyb []) := by decide
theorem test_decode_keyn : decodeTableWord 8 0b00001001 = some (.keyn 0) := by decide
theorem test_decode_csum : decodeTableWord 8 0b00001010 = some (.csum []) := by decide
theorem test_decode_cver : decodeTableWord 8 0b00001011 = some (.cver []) := by decide
theorem test_decode_mksyn : decodeTableWord 8 0b00010000 = some (.mksyn 0 0) := by decide
theorem test_decode_mkcon : decodeTableWord 8 0b00010001 = some (.mkcon 0 0 [] []) := by decide
theorem test_decode_mkack :
    decodeTableWord 8 0b00010010 = some (.mkack (defaultPacket 0) { sessionId := none, connSig := none, pktSig := none }) := by decide
theorem test_decode_wfull : decodeTableWord 8 0b00100000 = some .wfull := by decide
theorem test_decode_wadd : decodeTableWord 8 0b00100001 = some (.wadd (defaultPacket 0) none) := by decide
theorem test_decode_wack : decodeTableWord 8 0b00100010 = some (.wack (defaultPacket 0)) := by decide
theorem test_decode_wwait : decodeTableWord 8 0b00100011 = some (.wwait 0) := by decide
theorem test_decode_wretime : decodeTableWord 8 0b00100100 = some (.wretime 0 none) := by decide
theorem test_decode_wclear : decodeTableWord 8 0b00100101 = some .wclear := by decide
theorem test_decode_send : decodeTableWord 8 0b00110000 = some (.send (defaultPacket 0)) := by decide
theorem test_decode_tick : decodeTableWord 8 0b01000000 = some .tick := by decide
theorem test_decode_fire : decodeTableWord 8 0b01000001 = some (.fire 0) := by decide
theorem test_decode_unlisted_code : decodeTableWord 8 0b00000100 = none := by decide

/-- A fetched word is the first thing the step runs, from reset: KEYN 0. -/
theorem test_step_runs_fetched_word : reply (step (State.reset.withFetchWord 8 0x09)) = ok .nothing := by decide
/-- An unlisted code (rule R89). -/
theorem test_step_unlisted_code : reply (step (State.reset.withFetchWord 8 0xFF)) = bad 0x1F 0xFF := by decide

/-- Rule R10: the low byte first. -/
theorem test_le32 : le32 0x12345678 = [0x78, 0x56, 0x34, 0x12] := by decide

/-! The vectors of 95_test_vectors.md, each one step. -/

/-- A5. -/
theorem test_vdet_tagged : reply (exec (.vdet [0xEA, 0xD0, 0x01, 0xFF]) ready) = ok (.version 1 true) := by decide
/-- A10. -/
theorem test_vdet_structure : reply (exec (.vdet [0xA1, 0xB0, 0x00]) ready) = bad 0x01 1 := by decide
/-- B1. -/
theorem test_parse_syn : reply (exec (.parse (b1Bytes ++ [0x91])) ready) = ok (.packet { b1 with checksum := 0x91 }) := by decide
/-- B23: a size field of 1 where only the checksum byte is left. -/
theorem test_parse_size_short :
    reply (exec (.parse [0xA1, 0xAF, 0x90, 0, 0x5C, 0, 0, 0, 0, 0, 0, 0xDE, 0xAD, 0xBE, 0xEF, 1, 0, 0x78]) ready) = bad 0x01 2 := by decide
/-- B5: the inferred payload is sent, and the checksum covers a trailing byte. -/
theorem test_ser_data :
    reply (exec (.ser b5) ready)
      = ok (.frame [0xAF, 0xA1, 0x62, 0, 0x5C, 0, 0, 0, 0, 2, 0, 0, 1, 2, 3, 4, 5, 0x21]) := by decide
/-- B36: a payload where the flags leave no slot. -/
theorem test_ser_no_slot :
    reply (exec (.ser { b5 with flags := 0x001, payload := [1] }) ready) = bad 0x02 3 := by decide
/-- B2, through the SYN row. -/
theorem test_syn_row :
    reply (exec (.syn 0x009 (.serialise b2)) ready)
      = ok (.frame [0xA1, 0xAF, 0x90, 0, 0x5C, 0, 0, 0, 0, 0, 0, 0xDE, 0xAD, 0xBE, 0xEF, 0, 0, 0x78]) := by decide
/-- B3, through the CONNECT row. -/
theorem test_connect_row :
    reply (exec (.connect 0x006 (.parse 0xAF 0xA1 [0, 0x11, 0x22, 0x33, 0x44, 1, 0, 0xDE, 0xAD, 0xBE, 0xEF, 0x95])) ready)
      = ok (.packet { b3 with checksum := 0x95 }) := by decide
/-- B6, through the DATA row: HAS_SIZE wins over the inferred length. -/
theorem test_data_row :
    reply (exec (.data 0x00E (.parse 0xAF 0xA1 [0x5C, 0, 0, 0, 0, 3, 0, 1, 3, 0, 0xAA, 0xBB, 0xCC, 0xC9])) ready)
      = ok (.packet { b5 with flags := 0x00E, seq := 3, fragId := 1, payload := [0xAA, 0xBB, 0xCC], checksum := 0xC9 }) := by decide
/-- B8, through the DISCONNECT row. -/
theorem test_disconnect_row :
    reply (exec (.disconnect 0x004 (.serialise b8)) ready) = ok (.frame [0xAF, 0xA1, 0x43, 0, 0x5C, 0, 0, 0, 0, 4, 0, 0xF5]) := by decide
/-- B10, through the PING row. -/
theorem test_ping_row :
    reply (exec (.ping 0x004 (.serialise { b8 with seq := 5 })) ready) = ok (.frame [0xAF, 0xA1, 0x44, 0, 0x5C, 0, 0, 0, 0, 5, 0, 0xF7]) := by decide
/-- B14, type 7: no row, the BARE body. -/
theorem test_unassigned_type :
    reply (step { ready with sched := [.request (.format 0x0007 (.serialise { b8 with flags := 0, seq := 4 }))] })
      = ok (.frame [0xAF, 0xA1, 0x07, 0, 0x5C, 0, 0, 0, 0, 4, 0, 0xB9]) := by decide
/-- C16. -/
theorem test_keyb :
    exec (.keyb [0x72, 0x69, 0x64, 0x66, 0x65, 0x62, 0x62, 0x39]) (State.atReset vectorCfg)
      = .next (replied { State.atReset vectorCfg with key := 7, keyValid := true } 0 0 .nothing) := by rfl
/-- C5: the key of 401. -/
theorem test_keyn :
    exec (.keyn 401) (State.atReset vectorCfg)
      = .next (replied { State.atReset vectorCfg with key := 145, keyValid := true } 0 0 .nothing) := by rfl
/-- C11: the sum of the words wraps. -/
theorem test_csum_wraps : reply (exec (.csum (List.replicate 8 0xFF)) { ready with key := 0 }) = ok (.checksum 0xFB) := by decide
/-- C14: words and a remainder. -/
theorem test_csum_remainder : reply (exec (.csum [1, 2, 3, 4, 5, 6, 7]) { ready with key := 145 }) = ok (.checksum 0xAD) := by decide
/-- C21. -/
theorem test_cver_true : reply (exec (.cver (b1Bytes ++ [0x91])) ready) = ok (.verdict true) := by decide
/-- C23. -/
theorem test_cver_false : reply (exec (.cver [0x91]) ready) = ok (.verdict false) := by decide
/-- E1. -/
theorem test_mksyn : reply (exec (.mksyn 0xAF 0xA1) ready) = ok (.packet b1) := by decide
/-- E3. -/
theorem test_mkcon : reply (exec (.mkcon 0xAF 0xA1 [0xDE, 0xAD, 0xBE, 0xEF] [0x11, 0x22, 0x33, 0x44]) ready) = ok (.packet b3) := by decide
/-- E6: both lengths wrong. -/
theorem test_mkcon_refuses : reply (exec (.mkcon 0xAF 0xA1 [] []) ready) = bad 0x02 1 := by decide
/-- D16: the signature option is not used for DATA, and the payload is not copied. -/
theorem test_mkack_data :
    reply (exec (.mkack { b5 with flags := 0x00E, seq := 3, fragId := 1 }
        { sessionId := some 0x5C, connSig := none, pktSig := some [0x99, 0x99, 0x99, 0x99] }) ready)
      = ok (.ack (some { defaultPacket 0 with
          src := 0xA1, dst := 0xAF, type := 2, flags := 0x009, sessionId := 0x5C, seq := 3, pktSig := [0x12, 0x34, 0x56, 0x78] })) := by decide
/-- D11: the session id is tested before the PING branch. -/
theorem test_mkack_ping :
    reply (exec (.mkack { b8 with type := 4 } { sessionId := none, connSig := none, pktSig := none }) ready) = bad 0x03 2 := by decide
/-- F8, with a window of one. -/
theorem test_wfull : reply (exec .wfull { holding [entry 1 none] with cfg := smallCfg }) = ok (.verdict true) := by decide
/-- F7: a key between two others takes its place in the order. -/
theorem test_wadd :
    trace (exec (.wadd (d 11) (some 7)) (holding [entry 10 (some 50), entry 65535 none]))
      = some (0, [(10, some 50), (11, some 7), (65535, none)], []) := by decide
/-- F6. -/
theorem test_wadd_dup : reply (exec (.wadd (d 10) (some 50)) (holding [entry 10 (some 50)])) = bad 0x13 0 := by decide
/-- F12. -/
theorem test_wack :
    trace (exec (.wack { b2 with seq := 13 }) (holding [entry 12 (some 0), entry 13 (some 7)])) = some (0, [(12, some 0)], []) := by decide
/-- F11. -/
theorem test_wwait : reply (exec (.wwait 65535) (holding [entry 65535 (some 7)])) = ok (.verdict true) := by decide
/-- F14. -/
theorem test_wretime :
    trace (exec (.wretime 11 (some 2)) (holding [entry 10 (some 5), entry 11 none])) = some (0, [(10, some 5), (11, some 2)], []) := by decide
/-- F4. -/
theorem test_wretime_missing : reply (exec (.wretime 0 (some 9)) ready) = bad 0x14 0 := by decide
/-- F15. -/
theorem test_wclear : reply (exec .wclear (holding [entry 10 none, entry 11 none, entry 12 none])) = ok (.count 3) := by decide
/-- G2: the counter wins over the factory's sequence id. -/
theorem test_send :
    trace (exec (.send b3) { ready with seq := 7 })
      = some (8, [(7, some 3)], [[0xAF, 0xA1, 0x61, 0, 0, 0x11, 0x22, 0x33, 0x44, 7, 0, 0xDE, 0xAD, 0xBE, 0xEF, 0x9B]]) := by decide
/-- G6: the counter wraps. -/
theorem test_send_wraps : (trace (exec (.send (d 0)) { ready with seq := 65535 })).map Prod.fst = some 0 := by decide
/-- G10. -/
theorem test_tick : trace (exec .tick (holding [entry 0 none, entry 1 (some 1)])) = some (0, [(0, none), (1, some 0)], []) := by decide
/-- G9. -/
theorem test_tick_held :
    trace (exec .tick (holding [entry 0 (some 0), entry 1 (some 1)])) = some (0, [(0, some 0), (1, some 1)], []) := by decide
/-- G8, with the packet of B1. -/
theorem test_fire :
    trace (exec (.fire 0) (holding [{ pkt := b1, timer := some 0 }])) = some (0, [(0, some 3)], [b1Bytes ++ [0x91]]) := by decide
/-- Rule R192: FIRE of an entry that is not expired is not enabled. -/
theorem test_fire_held : trace (exec (.fire 0) (holding [{ pkt := b1, timer := some 1 }])) = some (0, [(0, some 1)], []) := by decide

/-! A witness for every statement with hypotheses: a concrete state and operands that meet all of them together, each clause at a boundary
of its range. -/

/-- A state whose next input is `r`. -/
def asked (r : Request) : State := { ready with sched := [.request r] }

/-- The same under the small straps. -/
def askedSmall (r : Request) : State := { asked r with cfg := smallCfg }

/-- The longest frame the small buffer holds. -/
theorem witness_StepRunsDecodedRequest :
    let r : Request := encode smallCfg (.vdet (List.replicate 12 0xA0))
    cfgValid (askedSmall r).cfg = true ∧ (askedSmall r).sched = .request r :: []
      ∧ decode (askedSmall r).cfg r = .ok (.vdet (List.replicate 12 0xA0))
      ∧ Instr.wf (askedSmall r).cfg (.vdet (List.replicate 12 0xA0)) = true := ⟨by decide, rfl, rfl, by decide⟩

/-- Straps with no window. -/
theorem witness_StepStopsAndWaits_refuses : cfgValid { vectorCfg with cap := 0 } = false := by decide
theorem witness_StepStopsAndWaits_waits : cfgValid ready.cfg = true ∧ ready.sched = [] := by decide
/-- One byte more than the buffer holds. -/
theorem witness_StepStopsAndWaits_faults :
    let r : Request := encode smallCfg (.vdet (List.replicate 13 0xA0))
    cfgValid (askedSmall r).cfg = true ∧ (askedSmall r).sched = .request r :: []
      ∧ decode (askedSmall r).cfg r = .ok (.vdet (List.replicate 13 0xA0))
      ∧ Instr.wf (askedSmall r).cfg (.vdet (List.replicate 13 0xA0)) = false := ⟨by decide, rfl, rfl, by decide⟩
/-- Types 5 and 15, the first and the last with no row; a frame that fills the buffer. -/
theorem witness_StepStopsAndWaits_unassigned :
    cfgValid smallCfg = true ∧ tfType 0x0005 ∉ typeCodes smallCfg ∧ tfType 0xFFFF ∉ typeCodes smallCfg
      ∧ (List.replicate 8 (0 : Byte)).length + 4 ≤ smallCfg.maxFrame := by decide

/-- The same straps with a version other than 0, or with signatures of 5 bytes (rule R7). -/
theorem witness_StepStopsAndWaits_fixedValues :
    cfgValid { vectorCfg with version := 1 } = false ∧ cfgValid { vectorCfg with sigLen := 5 } = false
      ∧ cfgValid { vectorCfg with seqReset := 1 } = false ∧ cfgValid vectorCfg = true := by decide
/-- Type 5, and a frame one byte longer than the buffer. -/
theorem witness_StepStopsAndWaits_unassigned_faults :
    let r : Request := .format 0x0005 (.parse 0xA0 0xA0 (List.replicate 9 0))
    cfgValid (askedSmall r).cfg = true ∧ (askedSmall r).sched = .request r :: [] ∧ tfType 0x0005 ∉ typeCodes (askedSmall r).cfg
      ∧ (askedSmall r).cfg.maxFrame < (List.replicate 9 (0 : Byte)).length + 4 := ⟨by decide, rfl, by decide, by decide⟩

/-- Codes beside listed ones. -/
theorem witness_UnlistedCodeIsIllegalCommand :
    cfgValid (asked (.coded 0x04 zeroOperands)).cfg = true
      ∧ (asked (.coded 0x04 zeroOperands)).sched = .request (.coded 0x04 zeroOperands) :: []
      ∧ ∀ code ∈ ([0x00, 0x04, 0x26, 0x42, 0xFF] : List Byte),
        code ∉ ([0x01, 0x02, 0x03, 0x08, 0x09, 0x0A, 0x0B, 0x10, 0x11, 0x12, 0x20, 0x21, 0x22, 0x23, 0x24, 0x25, 0x30, 0x40, 0x41] : List Byte) :=
  ⟨by decide, rfl, by decide⟩

theorem witness_DecodeOfEncode : cfgValid vectorCfg = true ∧ cfgValid smallCfg = true := by decide

theorem witness_EncodeOfDecode :
    decode vectorCfg (.format 0xFFF4 (.serialise b1)) = .ok (.ping 0xFFF (.serialise b1))
      ∧ decode vectorCfg (.coded 0x41 { zeroOperands with seq := 65535 }) = .ok (.fire 65535) := ⟨rfl, rfl⟩

/-- Both ends of the channel range, and bytes beside it that are no tag. -/
theorem witness_VersionDetectionAnswers :
    (inChannelRange 0xA0 ∧ inChannelRange 0xAF) ∧ ¬ (inChannelRange 0x9F ∧ inChannelRange 0xA1) ∧ ¬ isVersionTag 0x9F 0xA1
      ∧ ¬ (inChannelRange 0xEA ∧ inChannelRange 0xD1) ∧ ¬ isVersionTag 0xEA 0xD1 := by
  simp [inChannelRange, isVersionTag]

/-- Eleven bytes are one too few; one byte is no pair. -/
theorem witness_ParseRefusesLead :
    ([0xA0] : Bytes).length < 2 ∧ ¬ (inChannelRange 0xB0 ∧ inChannelRange 0xA1) ∧ ¬ isVersionTag 0xB0 0xA1
      ∧ (inChannelRange 0xA0 ∧ inChannelRange 0xAF) ∧ (List.replicate 9 (0 : Byte)).length < 10 := by
  simp [inChannelRange, isVersionTag]

/-- The common hypotheses, and words of each type under each tail option: SYN, CONNECT, DATA with ACK and without, type 7, with HAS_SIZE
and without. -/
theorem witness_ParseReadsEveryFormat :
    cfgValid ready.cfg = true ∧ (inChannelRange 0xA0 ∧ inChannelRange 0xAF) ∧ ([1, 2, 3, 4] : Bytes).length = 4
      ∧ (tfType 0x0040 = vectorCfg.tSyn ∧ tfFlags 0x0040 &&& vectorCfg.fHasSize = 0)
      ∧ (tfType 0x0081 = vectorCfg.tConnect ∧ tfFlags 0x0081 &&& vectorCfg.fHasSize ≠ 0)
      ∧ (tfType 0x0012 = vectorCfg.tData ∧ tfFlags 0x0012 &&& vectorCfg.fHasSize = 0 ∧ tfFlags 0x0012 &&& vectorCfg.fAck ≠ 0)
      ∧ (tfType 0x0042 = vectorCfg.tData ∧ tfFlags 0x0042 &&& vectorCfg.fHasSize = 0 ∧ tfFlags 0x0042 &&& vectorCfg.fAck = 0)
      ∧ (tfType 0x0092 = vectorCfg.tData ∧ tfFlags 0x0092 &&& vectorCfg.fHasSize ≠ 0)
      ∧ (tfType 0x0007 ∉ [vectorCfg.tSyn, vectorCfg.tConnect, vectorCfg.tData] ∧ tfFlags 0x0007 &&& vectorCfg.fHasSize = 0)
      ∧ (tfType 0x0083 ∉ [vectorCfg.tSyn, vectorCfg.tConnect, vectorCfg.tData] ∧ tfFlags 0x0083 &&& vectorCfg.fHasSize ≠ 0) := by
  refine ⟨by decide, by simp [inChannelRange], ?_⟩
  decide
/-- The longest payload a size field counts. -/
theorem witness_ParseReadsEveryFormat_longest : (List.replicate 65535 (0 : Byte)).length ≤ 65535 :=
  (List.length_replicate ..).le

/-- Clause by clause: a SYN with three bytes of its signature; with HAS_SIZE and one byte of a size; with a size of 1 and no payload; with a
size of 0 and one byte left; and a DATA ack with one byte left (B21 to B25). -/
theorem witness_ParseIsStrictAboutLength :
    cfgValid vectorCfg = true ∧ (inChannelRange 0xA0 ∧ inChannelRange 0xAF) ∧ ([1, 2, 3, 4] : Bytes).length = 4
      ∧ tfType 0x0080 = vectorCfg.tSyn ∧ ([1, 2, 3] : Bytes).length < 4
      ∧ (tfFlags 0x0080 &&& vectorCfg.fHasSize ≠ 0 ∧ 4 ≤ ([1, 2, 3, 4, 1] : Bytes).length ∧ ([1, 2, 3, 4, 1] : Bytes).length < 4 + 2)
      ∧ (4 + 2 ≤ ([1, 2, 3, 4, 1, 0] : Bytes).length
        ∧ ([1, 2, 3, 4, 1, 0] : Bytes).length < 4 + 2 + (le16At [1, 2, 3, 4, 1, 0] 4).toNat)
      ∧ 4 + 2 + (le16At [1, 2, 3, 4, 0, 0, 9] 4).toNat < ([1, 2, 3, 4, 0, 0, 9] : Bytes).length
      ∧ (tfType 0x0012 = vectorCfg.tData ∧ tfFlags 0x0012 &&& vectorCfg.fHasSize = 0 ∧ tfFlags 0x0012 &&& vectorCfg.fAck ≠ 0
        ∧ 1 < ([5, 6] : Bytes).length) := by
  refine ⟨by decide, by simp [inChannelRange], ?_⟩
  decide

/-- B1, parsed. -/
theorem witness_ParsedPacketReencodes :
    cfgValid ready.cfg = true
      ∧ exec (.parse (b1Bytes ++ [0x91])) ready = .next (replied ready 0 0 (.packet { b1 with checksum := 0x91 }))
      ∧ (replied ready 0 0 (.packet { b1 with checksum := 0x91 })).response
        = some { status := 0x00, cause := 0, result := .packet { b1 with checksum := 0x91 } } := ⟨by decide, rfl, rfl⟩
/-- B1, parsed, in a buffer that it fills. -/
theorem witness_ParsedPacketIsCanonical :
    let s : State := { ready with cfg := { vectorCfg with maxFrame := 16 } }
    cfgValid s.cfg = true
      ∧ exec (.parse (b1Bytes ++ [0x91])) s = .next (replied s 0 0 (.packet { b1 with checksum := 0x91 }))
      ∧ (b1Bytes ++ [0x91]).length ≤ s.cfg.maxFrame := ⟨by decide, rfl, by decide⟩

/-- B1 can be written; without a key it cannot. -/
theorem witness_SerWritesEveryFormat :
    cfgValid ready.cfg = true ∧ (ready.keyValid = true ∧ isSerialisable ready.cfg b1 = true)
      ∧ ¬ ({ ready with keyValid := false }.keyValid = true ∧ isSerialisable ready.cfg b1 = true) := by decide

/-- Each check fails by one: a version of 1, no key, signatures of 3 and 5 bytes, one byte of payload without a slot, a frame one byte
longer than the buffer; and a frame that fills the buffer. -/
theorem witness_SerChecksInOrder :
    cfgValid ready.cfg = true ∧ { b1 with version := 1 }.version ≠ 0 ∧ (State.atReset vectorCfg).keyValid = false
      ∧ { b1 with pktSig := [0, 0, 0] }.pktSig.length ≠ 4
      ∧ ({ b1 with connSig := [0, 0, 0, 0, 0] }.type = vectorCfg.tSyn ∧ { b1 with connSig := [0, 0, 0, 0, 0] }.connSig.length ≠ 4)
      ∧ (b8.flags &&& vectorCfg.fHasSize = 0 ∧ b8.type ≠ vectorCfg.tData ∧ { b8 with payload := [1] }.payload.length ≠ 0)
      ∧ (cfgValid { vectorCfg with maxFrame := 15 } = true ∧ frameLength vectorCfg b1 = 16) := by decide
/-- The shortest payload a size field cannot count. -/
theorem witness_SerChecksInOrder_tooLong : (0x008 : FlagSet) &&& vectorCfg.fHasSize ≠ 0 ∧ 65535 < (List.replicate 65536 (0 : Byte)).length :=
  ⟨by decide, (List.length_replicate ..).symm ▸ Nat.lt_succ_self _⟩

/-- B1 written in one unit and read in another. -/
theorem witness_SerialisedFrameParsesBack :
    cfgValid ready.cfg = true ∧ exec (.ser b1) ready = .next (replied ready 0 0 (.frame (b1Bytes ++ [0x91])))
      ∧ (inChannelRange b1.src ∧ inChannelRange b1.dst) ∧ (State.atReset vectorCfg).cfg = ready.cfg :=
  ⟨by decide, rfl, by simp [inChannelRange, b1], rfl⟩

theorem witness_PacketTypeRowsAgreeWithCodec : cfgValid ready.cfg = true := by decide
theorem witness_PacketTypeRowsRead :
    cfgValid ready.cfg = true ∧ (inChannelRange 0xA0 ∧ inChannelRange 0xAF) ∧ ([1, 2, 3, 4] : Bytes).length = 4
      ∧ (0xDF6 : FlagSet) &&& vectorCfg.fHasSize = 0 ∧ (0xDF6 : FlagSet) &&& vectorCfg.fAck = 0 := by
  refine ⟨by decide, by simp [inChannelRange], ?_⟩
  decide
/-- All five rows can write the packet of B1. -/
theorem witness_PacketTypeRowsWrite :
    ready.keyValid = true ∧ ∀ t ∈ typeCodes vectorCfg, isSerialisable vectorCfg { b1 with type := t, flags := 0x004 } = true := by decide

theorem witness_CsumComputesChecksum : (State.atReset vectorCfg).keyValid = false ∧ ready.keyValid = true := by decide
theorem witness_ChecksumIgnoresWordOrder :
    ([] : Bytes).length % 4 = 0 ∧ ([1, 2, 3, 4] : Bytes).length = 4 ∧ ([5, 6, 7, 8] : Bytes).length = 4 := by decide
theorem witness_CverComparesLastByte : (State.atReset vectorCfg).keyValid = false ∧ ready.keyValid = true := by decide
/-- B29: a frame that parses and does not verify. -/
theorem witness_VerifyAgreesWithParse :
    cfgValid ready.cfg = true ∧ ready.keyValid = true ∧ exec (.parse (b1Bytes ++ [0])) ready = .next (replied ready 0 0 (.packet b1)) :=
  ⟨by decide, rfl, rfl⟩
theorem witness_SerialisedFrameVerifies :
    exec (.ser b1) ready = .next (replied ready 0 0 (.frame (b1Bytes ++ [0x91])))
      ∧ (holding [entry 9 none]).keyValid = true ∧ (holding [entry 9 none]).key = ready.key := ⟨rfl, rfl, rfl⟩
theorem witness_KeyCommandsLoadKey : ([0x01, 0xFF] : Bytes).Perm [0xFF, 0x01] := by decide

theorem witness_FactoriesBuildPackets : ([1, 2, 3] : Bytes).length ≠ 4 ∧ ([1, 2, 3, 4] : Bytes).length = 4 := by decide
/-- Every flag but NEED_ACK. -/
theorem witness_AckNeedsNeedAck : (0xFFB : FlagSet) &&& vectorCfg.fNeedAck = 0 := by decide
/-- D15, D9, D6, D4, D11 and D10: version 1; type 5; no session id; a signature of three bytes; a PING. -/
theorem witness_AckRefusalsInOrder :
    cfgValid vectorCfg = true ∧ b1.flags &&& vectorCfg.fNeedAck ≠ 0 ∧ b1.version = 0 ∧ (1 : Byte) ≠ 0
      ∧ (5 : TypeCode) ∉ [vectorCfg.tSyn, vectorCfg.tConnect, vectorCfg.tData, vectorCfg.tDisconnect, vectorCfg.tPing]
      ∧ b3.flags &&& vectorCfg.fNeedAck ≠ 0 ∧ ¬ (b3.type = vectorCfg.tSyn ∨ ∃ x, (none : Option Byte) = some x)
      ∧ b1.type = vectorCfg.tSyn ∧ ([1, 2, 3] : Bytes).length ≠ 4
      ∧ b3.type = vectorCfg.tConnect ∧ { b8 with type := 4 }.type = vectorCfg.tPing := by decide
theorem witness_AckBuiltByType :
    cfgValid vectorCfg = true
      ∧ (b1.flags &&& vectorCfg.fNeedAck ≠ 0 ∧ b1.version = 0 ∧ b1.type = vectorCfg.tSyn ∧ ([1, 2, 3, 4] : Bytes).length = 4)
      ∧ (b3.flags &&& vectorCfg.fNeedAck ≠ 0 ∧ b3.version = 0 ∧ b3.type = vectorCfg.tConnect)
      ∧ (b5.flags &&& vectorCfg.fNeedAck ≠ 0 ∧ b5.version = 0 ∧ b5.type = vectorCfg.tData)
      ∧ (b8.flags &&& vectorCfg.fNeedAck ≠ 0 ∧ b8.version = 0 ∧ b8.type = vectorCfg.tDisconnect) := by decide

/-- A window with room for exactly one more. -/
theorem witness_WaddInsertsEntry :
    let s : State := { holding [entry 1 none] with cfg := { vectorCfg with cap := 2 } }
    s.window.length ≠ s.cfg.cap ∧ s.keyValid = true ∧ isSerialisable s.cfg (d 65535) = true ∧ lookup s.window (d 65535).seq = none := by decide
/-- Full; not full with another version, without a key, with a packet that cannot be written, with a key present. -/
theorem witness_WaddRefusalsInOrder :
    { holding [entry 1 none] with cfg := { vectorCfg with cap := 1 } }.window.length = 1
      ∧ ready.window.length ≠ ready.cfg.cap ∧ { d 1 with version := 1 }.version ≠ 0
      ∧ ((d 1).version = 0 ∧ (State.atReset vectorCfg).keyValid = false)
      ∧ ({ d 1 with pktSig := [] }.version = 0 ∧ ready.keyValid = true ∧ isSerialisable ready.cfg { d 1 with pktSig := [] } = false)
      ∧ (isSerialisable vectorCfg (d 1) = true ∧ lookup (holding [entry 1 none]).window (d 1).seq ≠ none) := by decide
theorem witness_WackRemovesExactlyOne :
    lookup ready.window b1.seq = none ∧ lookup (holding [{ pkt := b1, timer := some 0 }]).window b1.seq = some { pkt := b1, timer := some 0 }
      ∧ Window.wf (holding [{ pkt := b1, timer := some 0 }]).window ∧ b2.seq = b1.seq := by decide
theorem witness_WretimeReplacesTimer :
    lookup ready.window 65535 = none ∧ lookup (holding [entry 65535 none]).window 65535 = some (entry 65535 none)
      ∧ Window.wf (holding [entry 65535 none]).window := by decide

/-- The counter at its last value. -/
theorem witness_SendRegistersTracked :
    let s : State := { holding [entry 0 none] with seq := 65535 }
    { b3 with seq := 65535 } = { b3 with seq := s.seq } ∧ s.window.length ≠ s.cfg.cap
      ∧ b3.flags &&& s.cfg.fAck = 0 ∧ b3.flags &&& s.cfg.fMultiAck = 0 ∧ b3.flags &&& (s.cfg.fNeedAck ||| s.cfg.fReliable) ≠ 0
      ∧ s.keyValid = true ∧ isSerialisable s.cfg { b3 with seq := s.seq } = true ∧ lookup s.window s.seq = none := by decide
/-- DATA with no flags, and an ack, the second through a full window that drops only tracked sends. -/
theorem witness_SendTransmitsUntracked :
    let s : State := { holding [entry 0 none] with cfg := { vectorCfg with cap := 1, fullDropsUntracked := false } }
    (ready.window.length ≠ ready.cfg.cap ∨ ready.cfg.fullDropsUntracked = false)
      ∧ (s.window.length = s.cfg.cap ∧ (s.window.length ≠ s.cfg.cap ∨ s.cfg.fullDropsUntracked = false)) ∧ s.keyValid = true
      ∧ ((0x000 : FlagSet) &&& s.cfg.fAck = 0 ∧ (0x000 : FlagSet) &&& s.cfg.fMultiAck = 0
        ∧ (0x000 : FlagSet) &&& (s.cfg.fNeedAck ||| s.cfg.fReliable) = 0 ∧ isSerialisable s.cfg { d 0 with flags := 0, seq := s.seq } = true)
      ∧ ((b2.flags &&& s.cfg.fAck ≠ 0 ∨ b2.flags &&& s.cfg.fMultiAck ≠ 0) ∧ isSerialisable s.cfg b2 = true) := by decide
/-- Both kinds of drop at a full window of one. -/
theorem witness_FullWindowDropsSend :
    let s : State := { holding [entry 0 none] with cfg := smallCfg }
    s.window.length = s.cfg.cap ∧ s.cfg.fullDropsUntracked = true
      ∧ (b1.flags &&& s.cfg.fAck = 0 ∧ b1.flags &&& s.cfg.fMultiAck = 0 ∧ b1.flags &&& (s.cfg.fNeedAck ||| s.cfg.fReliable) ≠ 0) := by decide
/-- Not dropped: a window with room, and a full one that drops only tracked sends, with an ack. -/
theorem witness_SendRefusalsInOrder_notDropped :
    let s : State := { holding [entry 0 none] with cfg := { vectorCfg with cap := 1, fullDropsUntracked := false } }
    ready.window.length ≠ ready.cfg.cap ∧ s.window.length = s.cfg.cap ∧ b2.flags &&& s.cfg.fAck ≠ 0
      ∧ s.cfg.fullDropsUntracked = false := by decide
theorem witness_SendRefusalsInOrder :
    ready.window.length ≠ ready.cfg.cap ∧ { b1 with version := 1 }.version ≠ 0
      ∧ (b1.version = 0 ∧ (State.atReset vectorCfg).keyValid = false)
      ∧ (ready.keyValid = true ∧ isSerialisable ready.cfg { b1 with pktSig := [] } = false)
      ∧ ((holding [entry 0 none]).window.length ≠ vectorCfg.cap ∧ isSerialisable vectorCfg b1 = true
        ∧ lookup (holding [entry 0 none]).window (holding [entry 0 none]).seq ≠ none
        ∧ b1.flags &&& vectorCfg.fAck = 0 ∧ b1.flags &&& vectorCfg.fMultiAck = 0
        ∧ b1.flags &&& (vectorCfg.fNeedAck ||| vectorCfg.fReliable) ≠ 0) := by decide
/-- No timer, and a timer that runs out at this TICK. -/
theorem witness_TickCountsTimersDown :
    (∀ e ∈ (holding [entry 0 none, entry 1 (some 1)]).window, e.timer ≠ some 0)
      ∧ Window.wf (holding [entry 0 none, entry 1 (some 1)]).window
      ∧ lookup (holding [entry 0 none, entry 1 (some 1)]).window 2 = none
      ∧ (lookup (holding [entry 0 none, entry 1 (some 1)]).window 0 = some (entry 0 none) ∧ (entry 0 none).timer = none)
      ∧ (lookup (holding [entry 0 none, entry 1 (some 1)]).window 1 = some (entry 1 (some 1)) ∧ (entry 1 (some 1)).timer = some (0 + 1)) := by
  decide
theorem witness_DisabledEventsDoNothing :
    (∃ e ∈ (holding [entry 0 (some 0)]).window, e.timer = some 0) ∧ lookup ready.window 0 = none
      ∧ (lookup (holding [entry 0 (some 1)]).window 0 = some (entry 0 (some 1)) ∧ (entry 0 (some 1)).timer ≠ some 0) := by decide
theorem witness_FireRetransmits :
    lookup (holding [entry 0 (some 0)]).window 0 = some (entry 0 (some 0)) ∧ (entry 0 (some 0)).timer = some 0
      ∧ Window.wf (holding [entry 0 (some 0)]).window := by decide
/-- Sent under key 1, expired, and fired under key 2. -/
theorem witness_ResendIsIdentical :
    let f : Bytes := b1Bytes ++ [0x91]
    let a : State := replied { ready with seq := 1, tx := [f], window := [{ pkt := b1, timer := some 3 }] } 0 0 (.sendReport .sent 0 f)
    let b : State := { holding [{ pkt := b1, timer := some 0 }] with key := 2 }
    let t : State := { b with tx := [b1Bytes ++ [0x92]], window := [{ pkt := b1, timer := some 3 }], response := none }
    (b1.flags &&& ready.cfg.fAck = 0 ∧ b1.flags &&& ready.cfg.fMultiAck = 0
      ∧ b1.flags &&& (ready.cfg.fNeedAck ||| ready.cfg.fReliable) ≠ 0)
      ∧ exec (.send b1) ready = .next a ∧ a.response = some { status := 0x00, cause := 0, result := .sendReport .sent 0 f }
      ∧ lookup a.window 0 = some { pkt := b1, timer := some 3 } ∧ b.cfg = a.cfg
      ∧ lookup b.window 0 = some { pkt := b1, timer := some 0 } ∧ exec (.fire 0) b = .next t :=
  ⟨by decide, rfl, rfl, by decide, rfl, by decide, rfl⟩
/-- Two timers of 2, and none. -/
theorem witness_FiresAfterExactlyItsTicks :
    let w : Window := [entry 0 none, entry 1 (some 2), entry 2 (some 2)]
    lookup w 1 = some (entry 1 (some 2)) ∧ (entry 1 (some 2)).timer = some 2
      ∧ (∀ x ∈ w, ∀ j, x.timer = some j → 2 ≤ j) := ⟨by decide, rfl, by simp [entry]⟩
theorem witness_WackAgainstFire :
    lookup (holding [entry 7 (some 0)]).window (d 7).seq = some (entry 7 (some 0)) ∧ (entry 7 (some 0)).timer = some 0 := by decide
theorem witness_FireOrderShowsOnlyOnTx :
    let s := holding [entry 0 (some 0), entry 65535 (some 0)]
    (0 : SeqId) ≠ 65535 ∧ lookup s.window 0 = some (entry 0 (some 0)) ∧ (entry 0 (some 0)).timer = some 0
      ∧ lookup s.window 65535 = some (entry 65535 (some 0)) ∧ (entry 65535 (some 0)).timer = some 0 := by decide

/-- A status that is not OK, and each negative outcome with status OK. -/
theorem witness_FailuresChangeNothing :
    exec (.ser b1) (State.atReset vectorCfg) = .next (replied (State.atReset vectorCfg) 0x11 0 .nothing)
      ∧ exec (.wack b1) ready = .next (replied ready 0 0 (.verdict false))
      ∧ exec (.mkack b2 { sessionId := none, connSig := none, pktSig := none }) ready = .next (replied ready 0 0 (.ack none))
      ∧ exec (.send b1) { holding [entry 0 none] with cfg := smallCfg }
        = .next (replied { holding [entry 0 none] with cfg := smallCfg } 0 0 (.sendReport .dropped 0 [])) := ⟨rfl, rfl, rfl, rfl⟩
/-- A send that writes SEQ, the window and TX. -/
theorem witness_WritersOfEachRegister : trace (exec (.send b1) ready) = some (1, [(0, some 3)], [b1Bytes ++ [0x91]]) := by decide
theorem witness_WritersOfTheWindow :
    exec (.wadd (d 1) none) ready = .next (replied (holding [entry 1 none]) 0 0 (.verdict true))
      ∧ lookup ready.window 1 = none ∧ lookup (holding [entry 1 none]).window 1 ≠ none
      ∧ exec .wclear (holding [entry 1 none]) = .next (replied ready 0 0 (.count 1)) := ⟨rfl, by decide, by decide, rfl⟩
/-- A window at its capacity, and a TICK. -/
theorem witness_StepKeepsInvariant :
    let s : State := { holding [entry 1 (some 1), entry 2 none] with cfg := { vectorCfg with cap := 2 }, sched := [.request (.coded 0x40 zeroOperands)] }
    StateInv s ∧ trace (step s) = some (0, [(1, some 0), (2, none)], []) :=
  ⟨⟨by decide, by decide, by decide, by decide, by decide⟩, by decide⟩
theorem witness_ResetInputClearsState :
    let s : State := { holding [entry 1 none] with sched := [.reset] }
    cfgValid s.cfg = true ∧ s.sched = .reset :: [] := ⟨by decide, rfl⟩
theorem witness_OnlyResetClearsKeyValid :
    let s : State := { ready with sched := [.reset] }
    step s = .next (State.atReset vectorCfg) ∧ s.keyValid = true ∧ (State.atReset vectorCfg).keyValid = false := ⟨rfl, rfl, rfl⟩
theorem witness_OutputsAreNotRead : (trace (exec (.fire 0) (holding [{ pkt := b1, timer := some 0 }]))).isSome = true := by decide
/-- WADD reads KEY_VALID and not KEY. -/
theorem witness_KeyReaders :
    exec (.wadd (d 1) none) ready = .next (replied (holding [entry 1 none]) 0 0 (.verdict true))
      ∧ (∀ b, Instr.wadd (d 1) none ≠ .csum b) ∧ (∀ f, Instr.wadd (d 1) none ≠ .cver f) ∧ (∀ v, Instr.wadd (d 1) none ≠ .ser v)
      ∧ (∀ v, Instr.wadd (d 1) none ≠ .send v) ∧ (∀ q, Instr.wadd (d 1) none ≠ .fire q) ∧ (∀ b, Instr.wadd (d 1) none ≠ .keyb b)
      ∧ (∀ n, Instr.wadd (d 1) none ≠ .keyn n)
      ∧ (∀ flags v, Instr.wadd (d 1) none ≠ .syn flags (.serialise v) ∧ Instr.wadd (d 1) none ≠ .connect flags (.serialise v)
        ∧ Instr.wadd (d 1) none ≠ .data flags (.serialise v) ∧ Instr.wadd (d 1) none ≠ .disconnect flags (.serialise v)
        ∧ Instr.wadd (d 1) none ≠ .ping flags (.serialise v)) :=
  ⟨rfl, nofun, nofun, nofun, nofun, nofun, nofun, nofun, fun _ _ => ⟨nofun, nofun, nofun, nofun, nofun⟩⟩
/-- A command under valid straps: KEYN 1. -/
theorem witness_TickPeriodIsNotRead :
    step { State.atReset vectorCfg with sched := [.request (.coded 0x09 { zeroOperands with number := 1 })] }
      = .next (replied ready 0 0 .nothing) := rfl
/-- A status of each kind: an empty buffer to VDET, and CSUM without a key. -/
theorem witness_StatusesSorted :
    exec (.vdet []) ready = .next (replied ready 0x01 2 .nothing)
      ∧ exec (.csum []) (State.atReset vectorCfg) = .next (replied (State.atReset vectorCfg) 0x11 0 .nothing) := ⟨rfl, rfl⟩
/-- A step before a refusal, the step that ends with one, and none after it, where the machine itself goes on. -/
theorem witness_StrictStepStopsAtRefusals :
    let ask : Input := .request (.coded 0x0A zeroOperands)
    let s : State := { State.atReset vectorCfg with sched := [ask, ask] }
    let t : State := replied { s with sched := [ask] } 0x11 0 .nothing
    strictStep s = some t ∧ strictStep t = none ∧ step t = .next { t with sched := [] } := ⟨rfl, rfl, rfl⟩

end Sys2Proof.Tests
end

section
/-! SUPPORT. The opcode map seen from the step: what a request with a code that rule R83 does not list does (spec/30_encoding.md rule R89). -/

namespace Sys2Proof.Machine

open Sys2Proof.Safety

/-- Under valid straps a step takes the request at the head of the schedule and runs it (rule R62). -/
theorem step_request {s : State} {r : Request} {rest : List Input} (hc : cfgValid s.cfg = true) (hs : s.sched = .request r :: rest) :
    step s = runRequest r (setSched s rest) := by
  rw [step, if_pos hc, takeNext, hs]
  rfl

/-- The 19 command codes of rule R83. -/
def listedCodes : List Byte :=
  [0x01, 0x02, 0x03, 0x08, 0x09, 0x0A, 0x0B, 0x10, 0x11, 0x12, 0x20, 0x21, 0x22, 0x23, 0x24, 0x25, 0x30, 0x40, 0x41]

/-- A code that is not listed differs, as a number, from every code that is. -/
theorem toNat_notMem_listedCodes {code : Byte} (h : code ∉ listedCodes) : code.toNat ∉ listedCodes.map BitVec.toNat := by
  intro hm
  obtain ⟨c, hc, he⟩ := List.mem_map.1 hm
  exact h (BitVec.eq_of_toNat_eq he ▸ hc)

/-- The opcode map rejects a code that is not listed: each of its other arms is for a listed code. -/
theorem decodeCode_unlisted {code : Byte} (ops : Operands) (h : code ∉ listedCodes) :
    decodeCode code ops = .error (.illegalCommand code) := by
  have hn := toNat_notMem_listedCodes h
  unfold decodeCode
  split
  case h_20 => rfl
  all_goals
    rename_i hk
    rw [hk] at hn
    exact absurd (by decide) hn

/-- A request that the opcode map rejects replies `IllegalCommand`, with the code as the cause (rules R89, R208). -/
theorem runRequest_illegalCommand {r : Request} {s : State} {code : Byte} (h : decode s.cfg r = .error (.illegalCommand code)) :
    runRequest r s = .next (replied s 0x1F code .nothing) := by
  simp only [runRequest, h]
  exact raise_eq (.illegalCommand code) s

/-- Settles O3: the step runs the request on the state with the input taken, and the opcode map rejects it. -/
theorem unlistedCodeIsIllegalCommand : Obligations.UnlistedCodeIsIllegalCommand := by
  intro s code ops rest hc hs hcode
  rw [step_request hc hs]
  exact runRequest_illegalCommand (decodeCode_unlisted ops hcode)

end Sys2Proof.Machine
end

section
/-! SUPPORT. What VDET and SER answer: version detection per lead (spec/40_codec_wire.md rule R100), the layout of a packet's type and flags in
the spec's own terms (spec/30_encoding.md rules R72 to R75), and the admission checks one by one (spec/40_codec_wire.md rules R109, R110). -/

namespace Sys2Proof.Machine

open Sys2Proof.Safety

/-! VDET. -/

theorem detectVersion_short {buf : Bytes} (h : buf.length < 2) : detectVersion buf = .error (.parseError .short) := if_pos h

theorem detectVersion_untagged {b0 b1 : Byte} (rest : Bytes) (h0 : inChannelRange b0) (h1 : inChannelRange b1) :
    detectVersion (b0 :: b1 :: rest) = .ok (0, false) := by
  simp [detectVersion, byteAt, isChannel_eq_true.2 h0, isChannel_eq_true.2 h1, Config.version]

theorem detectVersion_tagged (b2 : Byte) (rest : Bytes) : detectVersion (0xEA :: 0xD0 :: b2 :: rest) = .ok (b2, true) := by
  simp [detectVersion, byteAt, isChannel]

theorem detectVersion_badLead {b0 b1 : Byte} (rest : Bytes) (hc : ¬ (inChannelRange b0 ∧ inChannelRange b1)) (ht : ¬ isVersionTag b0 b1) :
    detectVersion (b0 :: b1 :: rest) = .error (.parseError .badLead) := by
  have hc : ¬ (isChannel b0 && isChannel b1) = true := by simpa [isChannel_eq_true] using hc
  have hl : ¬ (b0 :: b1 :: rest).length < 2 := by simp
  exact (if_neg hl).trans ((if_neg hc).trans (if_neg ht))

theorem exec_vdet_ok {buf : Bytes} {ver : Byte} {tagged : Bool} (s : State) (h : detectVersion buf = .ok (ver, tagged)) :
    exec (.vdet buf) s = .next (replied s 0x00 0 (.version ver tagged)) := by
  show answer ((detectVersion buf).map _) s = _
  rw [h]
  rfl

theorem exec_vdet_error {buf : Bytes} {x : Exception} (s : State) (h : detectVersion buf = .error x) :
    exec (.vdet buf) s = .next (replied s (statusCode x) (statusCause x) .nothing) := by
  show answer ((detectVersion buf).map _) s = _
  rw [h]
  rfl

/-- Settles O8: each lead has its own answer of version detection, and VDET puts that on the response port. -/
theorem versionDetectionAnswers : Obligations.VersionDetectionAnswers := by
  intro s
  refine ⟨?_, fun b0 => ?_, fun b0 b1 rest h => ?_, ?_, fun b2 rest => ?_, fun b0 b1 rest hc ht => ?_⟩
  · exact exec_vdet_error s (detectVersion_short (by decide))
  · exact exec_vdet_error s (detectVersion_short (buf := [b0]) (by simp))
  · exact exec_vdet_ok s (detectVersion_untagged rest h.1 h.2)
  · exact exec_vdet_error s (x := .parseError .short) rfl
  · exact exec_vdet_ok s (detectVersion_tagged b2 rest)
  · exact exec_vdet_error s (detectVersion_badLead rest hc ht)

/-! The layout a type and its flags select, in the spec's terms. -/

section Layout

variable {c : Cfg}

theorem tailOption_eq_size {body : BodyFormat} {f : FlagSet} : tailOption c body f = .size ↔ f &&& c.fHasSize ≠ 0 := by
  refine ⟨fun h hs => ?_, tailOption_size body⟩
  rw [tailOption, if_neg (by rw [hasFlag_eq_true]; exact not_not.2 hs)] at h
  split at h <;> cases h

theorem bodyBytes_bodyFormat (v : Packet) :
    bodyBytes (bodyFormat c v.type) v
      = if v.type = c.tSyn ∨ v.type = c.tConnect then v.connSig else if v.type = c.tData then [v.fragId] else [] := by
  unfold bodyFormat
  split_ifs <;> rfl

theorem bodyLength_bodyFormat (t : TypeCode) :
    bodyLength (bodyFormat c t) = if t = c.tSyn ∨ t = c.tConnect then 4 else if t = c.tData then 1 else 0 := by
  unfold bodyFormat
  split_ifs <;> rfl

variable (hc : cfgValid c = true)

include hc

/-- The tail option of a type and its flags (rule R73): HAS_SIZE wins, and only DATA without ACK has an inferred length. -/
theorem tailOption_bodyFormat (t : TypeCode) (f : FlagSet) :
    tailOption c (bodyFormat c t) f
      = if f &&& c.fHasSize ≠ 0 then .size else if t = c.tData ∧ f &&& c.fAck = 0 then .rest else .nothing := by
  simp only [tailOption, hasFlag_eq_true, hasFlag_eq_false, bodyFormat_frag hc]

/-- A payload has no slot exactly where there is neither HAS_SIZE nor a DATA packet without ACK. -/
theorem tailOption_eq_nothing {t : TypeCode} {f : FlagSet} :
    tailOption c (bodyFormat c t) f = .nothing ↔ ¬ (f &&& c.fHasSize ≠ 0 ∨ (t = c.tData ∧ f &&& c.fAck = 0)) := by
  rw [tailOption_bodyFormat hc]
  split_ifs with hs hr
  · exact iff_of_false (by simp) (not_not.2 (.inl hs))
  · exact iff_of_false (by simp) (not_not.2 (.inr hr))
  · exact iff_of_true rfl (not_or.2 ⟨hs, hr⟩)

theorem tailBytes_tailOption (v : Packet) :
    tailBytes (tailOption c (bodyFormat c v.type) v.flags) v
      = if v.flags &&& c.fHasSize ≠ 0 then le16 (BitVec.ofNat 16 v.payload.length) ++ v.payload
        else if v.type = c.tData ∧ v.flags &&& c.fAck = 0 then v.payload else [] := by
  rw [tailOption_bodyFormat hc, apply_ite (tailBytes · v), apply_ite (tailBytes · v)]
  rfl

theorem tailLength_tailOption (n : Nat) (t : TypeCode) (f : FlagSet) :
    tailLength n (tailOption c (bodyFormat c t) f)
      = if f &&& c.fHasSize ≠ 0 then 2 + n else if t = c.tData ∧ f &&& c.fAck = 0 then n else 0 := by
  rw [tailOption_bodyFormat hc, apply_ite (tailLength n), apply_ite (tailLength n)]
  rfl

/-- The frame length of rule R74, with the slot of a payload as rule R109 names it. -/
theorem frameLength_eq (v : Packet) :
    frameLength c v = 12 + (if v.type = c.tSyn ∨ v.type = c.tConnect then 4 else if v.type = c.tData then 1 else 0)
      + (if v.flags &&& c.fHasSize ≠ 0 then 2 + v.payload.length
        else if v.flags &&& c.fHasSize ≠ 0 ∨ (v.type = c.tData ∧ v.flags &&& c.fAck = 0) then v.payload.length else 0) := by
  rw [frameLength, bodyLength_bodyFormat, tailLength_tailOption hc]
  by_cases hs : v.flags &&& c.fHasSize = 0
  · simp only [hs, ne_eq, not_true_eq_false, false_or, if_false]
    omega
  · simp only [hs, ne_eq, not_false_eq_true, if_true]
    omega

end Layout

/-! The checks of rule R109 on the fields, one by one. -/

section FieldFault

variable {c : Cfg} {v : Packet}

theorem fieldFault_pktSigLen (h : v.pktSig.length ≠ 4) : fieldFault c v = some .pktSigLen := if_pos h

variable (hp : v.pktSig.length = 4)

include hp

theorem fieldFault_connSigLen (h : bodyFormat c v.type = .sig ∧ v.connSig.length ≠ 4) : fieldFault c v = some .connSigLen :=
  (if_neg (not_not.2 hp)).trans (if_pos h)

variable (hs : ¬ (bodyFormat c v.type = .sig ∧ v.connSig.length ≠ 4))

include hs

theorem fieldFault_payloadNoSlot (h : tailOption c (bodyFormat c v.type) v.flags = .nothing ∧ v.payload.length ≠ 0) :
    fieldFault c v = some .payloadNoSlot :=
  (if_neg (not_not.2 hp)).trans ((if_neg hs).trans (if_pos h))

variable (hn : ¬ (tailOption c (bodyFormat c v.type) v.flags = .nothing ∧ v.payload.length ≠ 0))

include hn

theorem fieldFault_payloadTooLong (h : tailOption c (bodyFormat c v.type) v.flags = .size ∧ 65535 < v.payload.length) :
    fieldFault c v = some .payloadTooLong :=
  (if_neg (not_not.2 hp)).trans ((if_neg hs).trans ((if_neg hn).trans (if_pos h)))

variable (hl : ¬ (tailOption c (bodyFormat c v.type) v.flags = .size ∧ 65535 < v.payload.length))

include hl

theorem fieldFault_frameTooLong (h : c.maxFrame < frameLength c v) : fieldFault c v = some .frameTooLong :=
  (if_neg (not_not.2 hp)).trans ((if_neg hs).trans ((if_neg hn).trans ((if_neg hl).trans (if_pos h))))

theorem fieldFault_eq_none (h : frameLength c v ≤ c.maxFrame) : fieldFault c v = none :=
  (if_neg (not_not.2 hp)).trans ((if_neg hs).trans ((if_neg hn).trans ((if_neg hl).trans (if_neg h.not_gt))))

end FieldFault

/-- The checks of rule R109 on the fields pass exactly where each holds. -/
theorem fieldFault_eq_none_iff {c : Cfg} {v : Packet} : fieldFault c v = none ↔
    v.pktSig.length = 4 ∧ (bodyFormat c v.type = .sig → v.connSig.length = 4)
    ∧ (tailOption c (bodyFormat c v.type) v.flags = .nothing → v.payload.length = 0)
    ∧ (tailOption c (bodyFormat c v.type) v.flags = .size → v.payload.length ≤ 65535) ∧ frameLength c v ≤ c.maxFrame := by
  constructor
  · intro h
    obtain ⟨hp, hs, hn, hl, hm⟩ := fieldFault_none h
    exact ⟨hp, hs, fun ht => List.length_eq_zero_iff.2 (hn ht), hl, hm⟩
  · rintro ⟨hp, hs, hn, hl, hm⟩
    exact fieldFault_eq_none hp (fun h => h.2 (hs h.1)) (fun h => h.2 (hn h.1)) (fun h => h.2.not_ge (hl h.1)) hm

/-! SER. -/

/-- No exception has the status code of OK (rule R200). -/
theorem statusCode_ne_ok (x : Exception) : statusCode x ≠ 0x00 := by
  cases x <;> simp [statusCode]

theorem exec_ser_of_fault {s : State} {v : Packet} {x : Exception} (h : admissionFault s v = some x) :
    exec (.ser v) s = .next (replied s (statusCode x) (statusCause x) .nothing) := by
  show answer (serialise s v) s = _
  rw [serialise, h]
  rfl

theorem exec_ser_of_admitted {s : State} {v : Packet} (hk : s.keyValid = true) (h : isSerialisable s.cfg v = true) :
    exec (.ser v) s = .next (replied s 0x00 0 (.frame (frameOf s.cfg s.key v))) := by
  show answer (serialise s v) s = _
  rw [serialise_eq hk h]
  rfl

theorem admissionFault_version {s : State} {v : Packet} (h : v.version ≠ 0) :
    admissionFault s v = some (.unsupportedVersion v.version) := if_pos h

theorem admissionFault_noKey {s : State} {v : Packet} (hv : v.version = 0) (h : s.keyValid = false) :
    admissionFault s v = some .noKey :=
  (if_neg (not_not.2 hv)).trans (if_pos h)

theorem admissionFault_validation {s : State} {v : Packet} {x : ValidationCause} (hv : v.version = 0) (hk : s.keyValid = true)
    (h : fieldFault s.cfg v = some x) : admissionFault s v = some (.validationError x) :=
  (if_neg (not_not.2 hv)).trans ((if_neg (by simp [hk])).trans (congrArg _ h))

/-- SER of a packet of version 0 under a loaded key whose fields fail a check of rule R109. -/
theorem exec_ser_invalid {s : State} {v : Packet} {x : ValidationCause} (hv : v.version = 0) (hk : s.keyValid = true)
    (h : fieldFault s.cfg v = some x) :
    exec (.ser v) s = .next (replied s 0x02 (statusCause (.validationError x)) .nothing) :=
  exec_ser_of_fault (admissionFault_validation hv hk h)

/-- Settles O14: an admitted packet is answered with its frame, whose body and tail are those of its type and flags; any other packet
fails an admission check, and no exception has the status of OK. -/
theorem serWritesEveryFormat : Obligations.SerWritesEveryFormat := by
  intro s v hc
  refine ⟨fun h => ?_, fun h => ?_⟩
  · rw [exec_ser_of_admitted h.1 h.2, frameOf, encodePacket, bodyBytes_bodyFormat, tailBytes_tailOption hc]
    rfl
  · cases ha : admissionFault s v with
    | none => exact absurd (admissionFault_none ha) h
    | some x => exact ⟨_, _, statusCode_ne_ok x, exec_ser_of_fault ha⟩

/-- Settles O15: in the terms of the model's layout the nested tests are the admission checks in their order, each with its own answer. -/
theorem serChecksInOrder : Obligations.SerChecksInOrder := by
  intro s v hc hasSize isSig slot length
  have hSig : bodyFormat s.cfg v.type = .sig ↔ isSig := bodyFormat_sig
  have hSize : tailOption s.cfg (bodyFormat s.cfg v.type) v.flags = .size ↔ hasSize := tailOption_eq_size
  have hSlot : tailOption s.cfg (bodyFormat s.cfg v.type) v.flags = .nothing ↔ ¬ slot := tailOption_eq_nothing hc
  have hLength : frameLength s.cfg v = length := frameLength_eq hc v
  clear_value length slot isSig hasSize
  rw [← hSig, ← hSize, ← hSlot, ← hLength]
  refine ⟨?_, fun hv => exec_ser_of_fault (admissionFault_version hv), fun hv => ⟨fun hk => ?_, fun hk => ?_⟩⟩
  · rw [isSerialisable_iff, fieldFault_eq_none_iff]
  · exact exec_ser_of_fault (admissionFault_noKey hv hk)
  refine ⟨fun h => exec_ser_invalid hv hk (fieldFault_pktSigLen h), fun hp => ?_⟩
  refine ⟨fun h => exec_ser_invalid hv hk (fieldFault_connSigLen hp h), fun hs => ?_⟩
  refine ⟨fun h => exec_ser_invalid hv hk (fieldFault_payloadNoSlot hp hs h), fun hn => ?_⟩
  refine ⟨fun h => exec_ser_invalid hv hk (fieldFault_payloadTooLong hp hs hn h), fun hl => ?_⟩
  refine ⟨fun h => exec_ser_invalid hv hk (fieldFault_frameTooLong hp hs hn hl h), fun hm => ?_⟩
  have hf : fieldFault s.cfg v = none := fieldFault_eq_none hp hs hn hl hm
  exact ⟨exec_ser_of_admitted hk (isSerialisable_iff.2 ⟨hv, hf⟩), frameOf_length hf s.key⟩

end Sys2Proof.Machine
end

section
/-! SUPPORT. What CSUM, CVER, KEYB and KEYN answer (spec/41_checksum.md rules R124 to R127), and the checksum as a number (rules R120,
R121). -/

namespace Sys2Proof.Machine

open Sys2Proof.Safety

/-- The checksum is the sum of the key, `R` and `C`, reduced once (rule R121). -/
theorem checksum_toNat (b : Bytes) (k : Byte) :
    (checksum b k).toNat = (k.toNat + remainderSum b + laneSum (wordSum b)) % 256 :=
  BitVec.toNat_ofNat ..

/-- A number may be reduced modulo 256 before it is loaded as the key (rule R125). -/
theorem checksum_ofNat_toNat (b : Bytes) (n : Nat) :
    (checksum b (BitVec.ofNat 8 n)).toNat = (n + remainderSum b + laneSum (wordSum b)) % 256 := by
  rw [checksum_toNat, BitVec.toNat_ofNat]
  omega

/-- The sum of the bytes of a string does not depend on their order. -/
theorem byteSum_perm {k l : Bytes} (h : k.Perm l) : byteSum k = byteSum l := (h.map _).sum_eq

/-! CSUM and CVER. -/

theorem exec_csum_noKey {s : State} (b : Bytes) (h : s.keyValid = false) :
    exec (.csum b) s = .next (replied s 0x11 0 .nothing) :=
  if_neg (by simp [h])

theorem exec_csum_keyed {s : State} (b : Bytes) (h : s.keyValid = true) :
    exec (.csum b) s = .next (replied s 0x00 0 (.checksum (checksum b s.key))) :=
  if_pos h

theorem exec_cver_noKey {s : State} (f : Bytes) (h : s.keyValid = false) :
    exec (.cver f) s = .next (replied s 0x11 0 .nothing) :=
  if_pos h

theorem exec_cver_nil {s : State} (h : s.keyValid = true) : exec (.cver []) s = .next (replied s 0x01 2 .nothing) :=
  if_neg (by simp [h])

/-- A frame that is not empty is a string and its last byte, and CVER compares that byte with the checksum of the string. -/
theorem exec_cver_append {s : State} (b : Bytes) (x : Byte) (h : s.keyValid = true) :
    exec (.cver (b ++ [x])) s = .next (replied s 0x00 0 (.verdict (decide (checksum b s.key = x)))) := by
  have hlen : (b ++ [x]).length - 1 = b.length := by simp
  have hlast : byteAt (b ++ [x]) b.length = x := byteAt_append_right b [x] 0
  have hne : ¬ (b ++ [x]).length = 0 := by simp
  calc exec (.cver (b ++ [x])) s
      = done (.verdict (checksum (slice (b ++ [x]) 0 ((b ++ [x]).length - 1)) s.key == byteAt (b ++ [x]) ((b ++ [x]).length - 1))) s :=
        (if_neg (by simp [h])).trans (if_neg hne)
    _ = done (.verdict (decide (checksum b s.key = x))) s := by rw [hlen, slice_prefix [x] rfl, hlast, beq_eq_decide]

/-- Settles O20: CSUM answers the model's checksum, whose words, remainder and lanes are each the number that rule R120 gives. -/
theorem csumComputesChecksum : Obligations.CsumComputesChecksum := by
  intro s b
  refine ⟨exec_csum_noKey b, fun hk => ⟨checksum b s.key, ?_, exec_csum_keyed b hk⟩⟩
  simp only [checksum_toNat, laneSum_toNat, wordSum_toNat, le32At_toNat]
  rfl

/-- Settles O22: the three answers of CVER, by the key and whether the frame has a last byte. -/
theorem cverComparesLastByte : Obligations.CverComparesLastByte := fun _ b x =>
  ⟨fun hk f => exec_cver_noKey f hk, exec_cver_nil, exec_cver_append b x⟩

/-! KEYB and KEYN. -/

theorem exec_keyb (s : State) (k : Bytes) :
    exec (.keyb k) s = .next (replied { s with key := BitVec.ofNat 8 (byteSum k), keyValid := true } 0x00 0 .nothing) := rfl

theorem exec_keyn (s : State) (n : Nat) :
    exec (.keyn n) s = .next (replied { s with key := BitVec.ofNat 8 n, keyValid := true } 0x00 0 .nothing) := rfl

/-- Settles O25: both commands load a number modulo 256, KEYB's is a sum that no order changes, and the checksum reduces only once. -/
theorem keyCommandsLoadKey : Obligations.KeyCommandsLoadKey := by
  refine ⟨fun s k => ⟨_, BitVec.toNat_ofNat .., exec_keyb s k⟩, fun s k l h => ?_, fun s n => ?_⟩
  · rw [exec_keyb, exec_keyb, byteSum_perm h]
  · exact ⟨_, BitVec.toNat_ofNat .., exec_keyn s n, fun b => checksum_ofNat_toNat b n⟩

end Sys2Proof.Machine
end

section
/-! SUPPORT. What MKSYN, MKCON and MKACK answer (spec/42_factories.md): MKACK's tests one by one in the order of rule R148, and the ack
of each type (rules R144 to R146). -/

namespace Sys2Proof.Machine

open Sys2Proof.Safety

/-! MKSYN and MKCON. -/

theorem exec_mksyn (s : State) (l r : Byte) :
    exec (.mksyn l r) s = .next (replied s 0x00 0 (.packet (synPacket s.cfg l r))) := rfl

theorem exec_mkcon_connSigLen (s : State) (l r : Byte) {csig : Bytes} (psig : Bytes) (hc : csig.length ≠ 4) :
    exec (.mkcon l r csig psig) s = .next (replied s 0x02 1 .nothing) := if_pos hc

theorem exec_mkcon_pktSigLen (s : State) (l r : Byte) {csig psig : Bytes} (hc : csig.length = 4) (hp : psig.length ≠ 4) :
    exec (.mkcon l r csig psig) s = .next (replied s 0x02 2 .nothing) :=
  (if_neg (not_not.2 hc)).trans (if_pos hp)

theorem exec_mkcon_ok (s : State) (l r : Byte) {csig psig : Bytes} (hc : csig.length = 4) (hp : psig.length = 4) :
    exec (.mkcon l r csig psig) s = .next (replied s 0x00 0 (.packet (connectPacket s.cfg l r csig psig))) :=
  (if_neg (not_not.2 hc)).trans (if_neg (not_not.2 hp))

/-- Settles O26: the packets of the two factories have the fields of rules R150 and R151, and MKCON tests `connSig` first. -/
theorem factoriesBuildPackets : Obligations.FactoriesBuildPackets := fun s l r _ psig =>
  ⟨exec_mksyn s l r, exec_mkcon_connSigLen s l r psig, exec_mkcon_pktSigLen s l r, exec_mkcon_ok s l r⟩

/-! The signature of an ack (rule R146). -/

theorem signatureOr_supplied {g : Bytes} (cause : ValidationCause) (fresh : Bytes) (h : g.length = 4) :
    signatureOr (some g) cause fresh = .ok (g, false) := if_neg (not_not.2 h)

theorem signatureOr_wrongLength {g : Bytes} (cause : ValidationCause) (fresh : Bytes) (h : g.length ≠ 4) :
    signatureOr (some g) cause fresh = .error (.validationError cause) := if_pos h

theorem drawn_length (s : State) (n : Nat) : (drawn s n).length = n := by simp [drawn]

/-! The ack of a type (rule R145). Each type is selected alone, since the type codes of valid straps are distinct. -/

section AckByType

variable {c : Cfg} {r : Packet} (o : AckOptions) (fresh : Bytes)

/-- The fields every ack of a version-0 packet has (rule R144). -/
theorem ackBase_eq {o : AckOptions} {sid : Byte} (hv : r.version = 0) (hs : o.sessionId.getD 0 = sid) :
    ackBase c r o =
      { version := 0, src := r.dst, dst := r.src, type := r.type, flags := c.fAck, sessionId := sid, pktSig := [0, 0, 0, 0], seq := r.seq,
        fragId := 0, connSig := [0, 0, 0, 0], payload := [], checksum := 0 } := by
  subst hs
  rw [ackBase, hv]
  rfl

theorem ackByType_syn (h : r.type = c.tSyn) :
    ackByType c r o fresh = (signatureOr o.connSig .connSigLen fresh).map (fun p =>
      ({ ackBase c r o with flags := c.fAck ||| c.fHasSize, connSig := p.1 }, p.2)) := if_pos h

variable (hc : cfgValid c = true)

include hc

theorem ackByType_connect (h : r.type = c.tConnect) :
    ackByType c r o fresh = (signatureOr o.pktSig .pktSigLen fresh).map (fun p =>
      ({ ackBase c r o with flags := c.fAck ||| c.fHasSize, pktSig := p.1 }, p.2)) := by
  obtain ⟨hsc, -⟩ := types_distinct hc
  rw [ackByType, h, if_neg hsc.symm, if_pos rfl]

theorem ackByType_data (h : r.type = c.tData) :
    ackByType c r o fresh
      = .ok ({ ackBase c r o with flags := c.fAck ||| c.fHasSize, pktSig := c.dataAckSig }, false) := by
  obtain ⟨-, hsd, -, -, hcd, -⟩ := types_distinct hc
  rw [ackByType, h, if_neg hsd.symm, if_neg hcd.symm, if_pos rfl]

theorem ackByType_disconnect (h : r.type = c.tDisconnect) : ackByType c r o fresh = .ok (ackBase c r o, false) := by
  obtain ⟨-, -, hsx, -, -, hcx, -, hdx, -⟩ := types_distinct hc
  rw [ackByType, h, if_neg hsx.symm, if_neg hcx.symm, if_neg hdx.symm, if_pos rfl]

theorem ackByType_ping (h : r.type = c.tPing) : ackByType c r o fresh = .error .pingAckUnimplemented := by
  obtain ⟨-, -, -, hsp, -, -, hcp, -, hdp, hxp⟩ := types_distinct hc
  rw [ackByType, h, if_neg hsp.symm, if_neg hcp.symm, if_neg hdp.symm, if_neg hxp.symm]

end AckByType

/-! The tests before the type is looked at, in the order of rule R148. -/

section BuildAck

variable {c : Cfg} {r : Packet} (o : AckOptions) (fresh : Bytes)

theorem buildAck_noNeedAck (h : r.flags &&& c.fNeedAck = 0) : buildAck c r o fresh = .ok none := if_pos (hasFlag_eq_false.2 h)

variable (hf : r.flags &&& c.fNeedAck ≠ 0)

include hf

theorem buildAck_version (hv : r.version ≠ 0) : buildAck c r o fresh = .error (.unsupportedVersion r.version) :=
  (if_neg (by simp [hasFlag_eq_true.2 hf])).trans (if_pos hv)

variable (hv : r.version = 0)

include hv

theorem buildAck_unknownType (ht : r.type ∉ typeCodes c) : buildAck c r o fresh = .error (.protocolError .unknownType) :=
  (if_neg (by simp [hasFlag_eq_true.2 hf])).trans ((if_neg (not_not.2 hv)).trans (if_pos ht))

theorem buildAck_noSession {o : AckOptions} (ht : r.type ∈ typeCodes c) (hs : r.type ≠ c.tSyn ∧ o.sessionId = none) :
    buildAck c r o fresh = .error (.protocolError .noSession) :=
  (if_neg (by simp [hasFlag_eq_true.2 hf])).trans
    ((if_neg (not_not.2 hv)).trans ((if_neg (not_not.2 ht)).trans (if_pos hs)))

end BuildAck

/-! MKACK, by what the ack construction yields from the next bytes of the RNG port. -/

section Mkack

variable {s : State} {r : Packet} {o : AckOptions}

theorem exec_mkack_none (h : buildAck s.cfg r o (drawn s 4) = .ok none) :
    exec (.mkack r o) s = .next (replied s 0x00 0 (.ack none)) := by
  show execMkack r o s = _
  rw [execMkack, show buildAck s.cfg r o (drawn s Config.sigLen) = _ from h]
  rfl

theorem exec_mkack_error {x : Exception} (h : buildAck s.cfg r o (drawn s 4) = .error x) :
    exec (.mkack r o) s = .next (replied s (statusCode x) (statusCause x) .nothing) := by
  show execMkack r o s = _
  rw [execMkack, show buildAck s.cfg r o (drawn s Config.sigLen) = _ from h]
  rfl

variable (hf : r.flags &&& s.cfg.fNeedAck ≠ 0) (hv : r.version = 0) (ht : r.type ∈ typeCodes s.cfg)
  (hs : r.type = s.cfg.tSyn ∨ ∃ x, o.sessionId = some x)

include hf hv ht hs

/-- Nothing is drawn for a refusal of the type or of a signature. -/
theorem exec_mkack_refused {x : Exception} (h : ackByType s.cfg r o (drawn s 4) = .error x) :
    exec (.mkack r o) s = .next (replied s (statusCode x) (statusCause x) .nothing) :=
  exec_mkack_error (by rw [buildAck_eq _ hf hv ht hs, h]; rfl)

/-- Nothing is drawn for an ack that needs no fresh signature. -/
theorem exec_mkack_undrawn {a : Packet} (h : ackByType s.cfg r o (drawn s 4) = .ok (a, false)) :
    exec (.mkack r o) s = .next (replied s 0x00 0 (.ack (some a))) := by
  show execMkack r o s = _
  rw [execMkack, buildAck_eq _ hf hv ht hs, show ackByType s.cfg r o (drawn s Config.sigLen) = _ from h]
  rfl

/-- An ack with a fresh signature moves the RNG port on by four bytes, and no register (log entry 2). -/
theorem exec_mkack_drawn {a : Packet} (h : ackByType s.cfg r o (drawn s 4) = .ok (a, true)) :
    exec (.mkack r o) s = .next (replied { s with rng := s.rng + 4 } 0x00 0 (.ack (some a))) := by
  show execMkack r o s = _
  rw [execMkack, buildAck_eq _ hf hv ht hs, show ackByType s.cfg r o (drawn s Config.sigLen) = _ from h]
  rfl

end Mkack

/-- Settles O27: without NEED_ACK the construction ends at its first test. -/
theorem ackNeedsNeedAck : Obligations.AckNeedsNeedAck := fun _ _ o h => exec_mkack_none (buildAck_noNeedAck o _ h)

/-- Settles O28: each refusal is one test of the construction, reached once the tests before it are passed. -/
theorem ackRefusalsInOrder : Obligations.AckRefusalsInOrder := by
  intro s r o hc hf known session
  refine ⟨fun hv => ?version, fun hv ht => ?unknownType, fun hv ht hs => ?noSession, fun hv ht g hg hl => ?connSigLen,
    fun hv ht hs g hg hl => ?pktSigLen, fun hv ht hs => ?ping⟩
  case version => exact exec_mkack_error (buildAck_version o _ hf hv)
  case unknownType => exact exec_mkack_error (buildAck_unknownType o _ hf hv ht)
  case noSession =>
    obtain ⟨hsyn, hno⟩ := not_or.1 hs
    exact exec_mkack_error (buildAck_noSession _ hf hv ht ⟨hsyn, by simpa [Option.eq_none_iff_forall_ne_some] using hno⟩)
  case connSigLen =>
    refine exec_mkack_refused (x := .validationError .connSigLen) hf hv (by simp [typeCodes, ht]) (.inl ht) ?_
    rw [ackByType_syn o _ ht, hg, signatureOr_wrongLength _ _ hl]
    rfl
  case pktSigLen =>
    refine exec_mkack_refused (x := .validationError .pktSigLen) hf hv (by simp [typeCodes, ht]) hs ?_
    rw [ackByType_connect o _ hc ht, hg, signatureOr_wrongLength _ _ hl]
    rfl
  case ping => exact exec_mkack_refused hf hv (by simp [typeCodes, ht]) hs (ackByType_ping o _ hc ht)

/-- Settles O29: the ack of each type is the fields every ack has and that type's own; a signature is the one supplied or the bytes drawn. -/
theorem ackBuiltByType : Obligations.AckBuiltByType := by
  intro s r o hc hf hv ack
  refine ⟨fun ht => ?syn, fun sid hsid => ?others⟩
  case syn =>
    have hk : r.type ∈ typeCodes s.cfg := by simp [typeCodes, ht]
    refine ⟨fun g hg hl => ?_, fun hg => ⟨drawn s 4, s.rng + 4, drawn_length s 4, ?_⟩⟩
    · refine exec_mkack_undrawn hf hv hk (.inl ht) ?_
      rw [ackByType_syn o _ ht, hg, signatureOr_supplied _ _ hl, ackBase_eq hv rfl]
      rfl
    · refine exec_mkack_drawn hf hv hk (.inl ht) ?_
      rw [ackByType_syn o _ ht, hg, ackBase_eq hv rfl]
      rfl
  case others =>
    have hs : r.type = s.cfg.tSyn ∨ ∃ x, o.sessionId = some x := .inr ⟨sid, hsid⟩
    have hbase := ackBase_eq (c := s.cfg) hv (show o.sessionId.getD 0 = sid by rw [hsid]; rfl)
    refine ⟨fun ht => ⟨fun g hg hl => ?connectSupplied, fun hg => ⟨drawn s 4, s.rng + 4, drawn_length s 4, ?connectDrawn⟩⟩,
      fun ht => ?data, fun ht => ?disconnect⟩
    case connectSupplied =>
      refine exec_mkack_undrawn hf hv (by simp [typeCodes, ht]) hs ?_
      rw [ackByType_connect o _ hc ht, hg, signatureOr_supplied _ _ hl, hbase]
      rfl
    case connectDrawn =>
      refine exec_mkack_drawn hf hv (by simp [typeCodes, ht]) hs ?_
      rw [ackByType_connect o _ hc ht, hg, hbase]
      rfl
    case data =>
      refine exec_mkack_undrawn hf hv (by simp [typeCodes, ht]) hs ?_
      rw [ackByType_data o _ hc ht, hbase]
    case disconnect =>
      refine exec_mkack_undrawn hf hv (by simp [typeCodes, ht]) hs ?_
      rw [ackByType_disconnect o _ hc ht, hbase]

end Sys2Proof.Machine
end

section
/-! SUPPORT. What WFULL, WWAIT, WACK and WRETIME answer, by whether the key they name has an entry (spec/43_window.md rules R160, R165,
R167, R168). -/

namespace Sys2Proof.Machine

open Sys2Proof.Safety

/-- The membership test of a window, in terms of its entries. -/
theorem lookup_isSome_iff {w : Window} {q : SeqId} : (lookup w q).isSome = true ↔ ∃ e ∈ w, e.pkt.seq = q := by
  simp [lookup]

theorem isFull_eq_decide (s : State) : isFull s = decide (s.window.length = s.cfg.cap) := beq_eq_decide ..

/-! WFULL and WWAIT. -/

theorem exec_wfull (s : State) : exec .wfull s = .next (replied s 0x00 0 (.verdict (isFull s))) := rfl

theorem exec_wwait (q : SeqId) (s : State) : exec (.wwait q) s = .next (replied s 0x00 0 (.verdict (lookup s.window q).isSome)) := rfl

/-- Settles O30: WFULL compares COUNT with CAP, and WWAIT looks the key up. -/
theorem windowTestsAnswer : Obligations.WindowTestsAnswer := by
  intro s q
  have hmem : (lookup s.window q).isSome = decide (∃ e ∈ s.window, e.pkt.seq = q) :=
    Bool.eq_iff_iff.2 (lookup_isSome_iff.trans decide_eq_true_iff.symm)
  rw [exec_wfull, exec_wwait, isFull_eq_decide, hmem]
  exact ⟨rfl, rfl⟩

/-! WACK. -/

section Wack

variable {s : State} {p : Packet}

theorem exec_wack_absent (h : lookup s.window p.seq = none) : exec (.wack p) s = .next (replied s 0x00 0 (.verdict false)) :=
  if_neg (by simp [h])

theorem exec_wack_present {e : Entry} (h : lookup s.window p.seq = some e) :
    exec (.wack p) s = .next (replied { s with window := remove s.window p.seq } 0x00 0 (.verdict true)) :=
  if_pos (by simp [h])

/-- WACK reads only the packet's sequence id. -/
theorem exec_wack_congr {p' : Packet} (h : p'.seq = p.seq) : exec (.wack p') s = exec (.wack p) s := by
  show execWack p' s = execWack p s
  rw [execWack, execWack, h]

end Wack

/-- Settles O33: with an entry the window after is the one with that key removed. -/
theorem wackRemovesExactlyOne : Obligations.WackRemovesExactlyOne := fun s p =>
  ⟨exec_wack_absent,
    fun _ he => ⟨remove s.window p.seq, exec_wack_present he, lookup_remove_self .., fun _ hq => lookup_remove_other _ hq.symm,
      fun hw => ⟨wf_remove hw _, length_remove hw he⟩⟩,
    fun _ => exec_wack_congr⟩

/-! WRETIME. -/

section Wretime

variable {s : State} {q : SeqId} (timer : Option Nat)

theorem exec_wretime_absent (h : lookup s.window q = none) : exec (.wretime q timer) s = .next (replied s 0x14 0 .nothing) :=
  if_neg (by simp [h])

theorem exec_wretime_present {e : Entry} (h : lookup s.window q = some e) :
    exec (.wretime q timer) s = .next (replied { s with window := retime s.window q timer } 0x00 0 .nothing) :=
  if_pos (by simp [h])

end Wretime

/-- Settles O34: with an entry the window after is the one with that key re-timed. -/
theorem wretimeReplacesTimer : Obligations.WretimeReplacesTimer := fun s q timer =>
  ⟨exec_wretime_absent timer,
    fun _ he => ⟨retime s.window q timer, exec_wretime_present timer he, lookup_retime_self he timer,
      fun _ hr => lookup_retime_other _ hr.symm timer, length_retime .., fun hw => wf_retime hw q timer⟩⟩

end Sys2Proof.Machine
end

section
/-! SUPPORT. What SEND answers when a full window drops the packet, and what an enabled TICK and an enabled FIRE do
(spec/44_send_and_timers.md rules R184, R185, R190, R192). -/

namespace Sys2Proof.Machine

open Sys2Proof.Safety

/-! SEND. -/

/-- The test of rules R184 and R185, in terms of COUNT, the packet's flags and the parameter. -/
theorem isDropped_eq_true {s : State} {v : Packet} :
    isDropped s v = true ↔ s.window.length = s.cfg.cap ∧ (isTracked s.cfg v.flags = true ∨ s.cfg.fullDropsUntracked = true) := by
  simp only [isDropped, isFull_eq_decide, Bool.and_eq_true, Bool.or_eq_true, decide_eq_true_eq]

theorem exec_send_dropped {s : State} {v : Packet} (h : isDropped s v = true) :
    exec (.send v) s = .next (replied s 0x00 0 (.sendReport .dropped v.seq [])) :=
  if_pos h

/-- Settles O38: either ground of the drop makes the model's test true, and SEND makes that test before any other. -/
theorem fullWindowDropsSend : Obligations.FullWindowDropsSend := fun _ _ hfull hkind =>
  exec_send_dropped (isDropped_eq_true.2 ⟨hfull, hkind.symm.imp_left isTracked_eq_true.2⟩)

/-! TICK. -/

theorem tickEntry_of_none {e : Entry} (h : e.timer = none) : tickEntry e = e := by
  simp [tickEntry, h]

theorem tickEntry_of_succ {e : Entry} {k : Nat} (h : e.timer = some (k + 1)) : tickEntry e = { e with timer := some k } := by
  simp [tickEntry, h]

theorem lookup_tick_of_some {w : Window} {q : SeqId} {e : Entry} (h : lookup w q = some e) :
    lookup (w.map tickEntry) q = some (tickEntry e) := by
  rw [lookup_tick, h, Option.map_some]

theorem lookup_tick_of_none {w : Window} {q : SeqId} (h : lookup w q = none) : lookup (w.map tickEntry) q = none := by
  rw [lookup_tick, h, Option.map_none]

theorem exec_tick_enabled {s : State} (h : tickEnabled s = true) :
    exec .tick s = .next { s with window := s.window.map tickEntry, response := none } :=
  if_pos h

/-- Settles O40: the window after is the one before with one TICK of each entry, which keeps the keys. -/
theorem tickCountsTimersDown : Obligations.TickCountsTimersDown := by
  intro s hlive
  refine ⟨s.window.map tickEntry, none, exec_tick_enabled (tickEnabled_eq_true.2 hlive), fun q => lookup_tick_of_none,
    fun q e he ht => ?untimed, fun q e k he ht => ?live, List.length_map _, wf_tick⟩
  case untimed => rw [lookup_tick_of_some he, tickEntry_of_none ht]
  case live => rw [lookup_tick_of_some he, tickEntry_of_succ ht]

/-! FIRE. -/

theorem exec_fire_expired {s : State} {q : SeqId} {e : Entry} (he : lookup s.window q = some e) (ht : e.timer = some 0) :
    exec (.fire q) s = .next { s with
      tx := s.tx ++ [frameOf s.cfg s.key e.pkt], window := retime s.window q (some s.cfg.rtoTicks), response := none } := by
  rcases execFire_next q s with ⟨-, hidle⟩ | ⟨g, hg, -, hfire⟩
  · exact absurd ht (hidle e he)
  · obtain rfl : e = g := Option.some.inj (he.symm.trans hg)
    exact hfire

/-- Settles O42: the window after is the one before with the fired key re-timed, and nothing asks whether it is full. -/
theorem fireRetransmits : Obligations.FireRetransmits := fun s q _ he ht =>
  ⟨retime s.window q (some s.cfg.rtoTicks), none, exec_fire_expired he ht, lookup_retime_self he _,
    fun _ hr => lookup_retime_other _ hr.symm _, length_retime .., fun hw => wf_retime hw q _⟩

end Sys2Proof.Machine
end

section
/-! SUPPORT. A failure answers and changes nothing else (spec/60_exceptions.md rules R209, R216): whatever changes a register, the window or a
port other than the response ends with a positive result or, for an event, with no response at all. -/

namespace Sys2Proof.Machine

open Sys2Proof.Safety

/-- The responses of rule R216: a status other than OK, or a negative outcome with status OK (rule R209). -/
def IsFailure (r : Response) : Prop :=
  r.status ≠ 0x00 ∨ r.result = .verdict false ∨ r.result = .ack none ∨ ∃ q f, r.result = .sendReport .dropped q f

/-- With status OK only the result can make a response a failure. -/
@[simp] theorem isFailure_okResponse {a : Result} :
    IsFailure (okResponse a) ↔ a = .verdict false ∨ a = .ack none ∨ ∃ q f, a = .sendReport .dropped q f :=
  or_iff_right (not_not.2 rfl)

theorem not_isFailure_of_nothing {r : Response} (hs : r.status = 0) (hr : r.result = .nothing) : ¬ IsFailure r := by
  simp [IsFailure, hs, hr]

/-- No response on the port is a failure. -/
def EndsWell (t : State) : Prop := ∀ r, t.response = some r → ¬ IsFailure r

theorem endsWell_respond {u : State} {x : Response} (h : ¬ IsFailure x) : EndsWell (respond u x) := by
  rintro r hr
  obtain rfl : x = r := Option.some.inj hr
  exact h

theorem endsWell_silent (u : State) : EndsWell (silent u) := nofun

/-- An instruction changes nothing but the response port, or it ends well. -/
theorem exec_respond_or_endsWell {i : Instr} {s t : State} (h : exec i s = .next t) : (∃ x, t = respond s x) ∨ EndsWell t := by
  rcases exec_cases h with ⟨x, rfl, -⟩ | ⟨_, _, rfl, hs, hr, -⟩ | ⟨_, _, _, -, rfl⟩ | ⟨_, _, -, -, -, -, -, rfl⟩ | ⟨_, -, rfl⟩
    | ⟨_, _, -, rfl⟩ | ⟨-, rfl⟩ | ⟨_, _, -, -, -, -, -, rfl⟩ | ⟨rfl, -⟩ | ⟨-, rfl⟩ | ⟨_, _, -, -, -, rfl⟩
  · exact .inl ⟨x, rfl⟩
  · exact .inr (endsWell_respond (not_isFailure_of_nothing hs hr))
  -- MKACK with an ack, WADD, WACK, WRETIME, WCLEAR and SEND end with a positive result, each visibly none of the negative ones.
  iterate 6 exact .inr (endsWell_respond (by simp))
  -- The events leave no response.
  iterate 3 exact .inr (endsWell_silent _)

/-- Settles O47: a failure does not end well, so the instruction changed nothing but the response port. -/
theorem failuresChangeNothing : Obligations.FailuresChangeNothing := by
  intro i s t r h hr hfail
  rcases exec_respond_or_endsWell h with ⟨x, rfl⟩ | hwell
  · obtain rfl : x = r := Option.some.inj hr
    rfl
  · exact absurd hfail (hwell r hr)

end Sys2Proof.Machine
end

section
/-! SUPPORT. The decoder and the encoder undo each other (spec/30_encoding.md sections 2, 3), the word and byte-order primitives as numbers
(spec/00_scope.md rule R10), and what a step does with each kind of request (spec/20_memory.md rule R62). -/

namespace Sys2Proof.Machine

open Sys2Proof.Safety

/-! The decoder on what the encoder writes. -/

/-- The row of a type+flags word is the first whose type code it has. -/
theorem decodeFormat_typeFlagsWord (c : Cfg) (flags : FlagSet) (t : TypeCode) (use : FormatUse) :
    decodeFormat c (typeFlagsWord flags t) use
      = if t = c.tSyn then .ok (.syn flags use) else if t = c.tConnect then .ok (.connect flags use)
        else if t = c.tData then .ok (.data flags use) else if t = c.tDisconnect then .ok (.disconnect flags use)
        else if t = c.tPing then .ok (.ping flags use) else .error (.unassignedType t) := by
  simp only [decodeFormat, tfType_typeFlagsWord, tfFlags_typeFlagsWord]

/-- Settles O4: the type codes of valid straps are distinct, so a type+flags word selects its own row; a command code selects its own arm
of the opcode map, and each of its operands stands in the lane that arm reads. -/
theorem decodeOfEncode : Obligations.DecodeOfEncode := by
  intro c i hc
  obtain ⟨hsc, hsd, hsx, hsp, hcd, hcx, hcp, hdx, hdp, hxp⟩ := types_distinct hc
  cases i
  case syn flags use => exact (decodeFormat_typeFlagsWord ..).trans (if_pos rfl)
  case connect flags use =>
    refine (decodeFormat_typeFlagsWord ..).trans ?_
    rw [if_neg hsc.symm, if_pos rfl]
  case data flags use =>
    refine (decodeFormat_typeFlagsWord ..).trans ?_
    rw [if_neg hsd.symm, if_neg hcd.symm, if_pos rfl]
  case disconnect flags use =>
    refine (decodeFormat_typeFlagsWord ..).trans ?_
    rw [if_neg hsx.symm, if_neg hcx.symm, if_neg hdx.symm, if_pos rfl]
  case ping flags use =>
    refine (decodeFormat_typeFlagsWord ..).trans ?_
    rw [if_neg hsp.symm, if_neg hcp.symm, if_neg hdp.symm, if_neg hxp.symm, if_pos rfl]
  -- The 19 commands: the code is a numeral, and the opcode map computes.
  all_goals rfl

/-! The encoder on what the decoder reads. -/

/-- A type+flags word is the word of its own flags and any type code that its type is. -/
theorem encode_format_eta {tf : BitVec 16} {t : TypeCode} (use : FormatUse) (h : tfType tf = t) :
    Request.format (typeFlagsWord (tfFlags tf) t) use = .format tf use := by
  rw [← h, typeFlagsWord_eta]

theorem encode_of_decodeFormat {c : Cfg} {tf : BitVec 16} {use : FormatUse} {i : Instr} (h : decodeFormat c tf use = .ok i) :
    encode c i = .format tf use := by
  unfold decodeFormat at h
  split_ifs at h with h1 h2 h3 h4 h5 <;> cases h
  · exact encode_format_eta use h1
  · exact encode_format_eta use h2
  · exact encode_format_eta use h3
  · exact encode_format_eta use h4
  · exact encode_format_eta use h5

/-- A code is told by its number. -/
theorem coded_of_toNat {code k : Byte} (lanes : Operands) (h : code.toNat = k.toNat) : Request.coded k lanes = .coded code lanes := by
  rw [BitVec.eq_of_toNat_eq h]

theorem encode_of_decodeCode (c : Cfg) {code : Byte} {ops : Operands} {i : Instr} (h : decodeCode code ops = .ok i) :
    ∃ lanes, encode c i = .coded code lanes := by
  unfold decodeCode at h
  split at h
  case h_20 => cases h
  all_goals
    rename_i hk
    cases h
    exact ⟨_, coded_of_toNat _ hk⟩

/-- Settles O5: each arm of the decoder is left with the word or the code that its instruction is encoded to. -/
theorem encodeOfDecode : Obligations.EncodeOfDecode :=
  ⟨fun _ _ _ _ => encode_of_decodeFormat, fun c _ _ _ => encode_of_decodeCode c⟩

/-- Settles O6: the straps of the reset state are numerals where the decoder looks at them, so each word computes. -/
theorem tableWordsDecode : Obligations.TableWordsDecode :=
  ⟨rfl, rfl, rfl, rfl, rfl, rfl, rfl, rfl, rfl, rfl⟩

/-! The byte order in numbers. -/

theorem le16At_toNat (b : Bytes) (i : Nat) : (le16At b i).toNat = (byteAt b i).toNat + 256 * (byteAt b (i + 1)).toNat := by
  have h0 := (byteAt b i).isLt
  have h1 := (byteAt b (i + 1)).isLt
  rw [le16At, BitVec.toNat_ofNat, Nat.mod_eq_of_lt]
  omega

/-- `le16` writes a word as its two bytes, the low one first. -/
theorem le16_toNat (v : BitVec 16) : (le16 v).map BitVec.toNat = [v.toNat % 256, v.toNat / 256] := by
  have := v.isLt
  simp only [le16, List.map_cons, List.map_nil, BitVec.toNat_ofNat, List.cons.injEq, and_true, true_and]
  omega

/-- Settles O7: the word and each primitive is the number of its parts, and reading undoes writing. -/
theorem wordFieldsAndByteOrder : Obligations.WordFieldsAndByteOrder :=
  ⟨fun f t => ⟨typeFlagsWord_toNat f t, tfFlags_typeFlagsWord f t, tfType_typeFlagsWord f t⟩,
    fun b i => ⟨le16At_toNat b i, le32At_toNat b i⟩,
    fun v => ⟨le16_toNat v, le16At_append [] v []⟩,
    fun v => ⟨le32_toNat v, le32At_le32 v⟩⟩

/-! What a step does with a request. -/

section RunRequest

variable {s : State} {r : Request}

theorem runRequest_exec {i : Instr} (hd : decode s.cfg r = .ok i) (hw : i.wf s.cfg = true) : runRequest r s = exec i s := by
  simp only [runRequest, hd]
  exact if_pos hw

theorem runRequest_overrun {i : Instr} (hd : decode s.cfg r = .ok i) (hw : i.wf s.cfg = false) :
    runRequest r s = .fault .frameBufferOverrun := by
  simp only [runRequest, hd]
  exact if_neg (by simp [hw])

/-- A type with no row is rejected by the decoder and run with the BARE body (rule R86). -/
theorem runRequest_unassigned {tf : BitVec 16} (use : FormatUse) (h : tfType tf ∉ typeCodes s.cfg) :
    runRequest (.format tf use) s = runUnassigned tf use s := by
  simp only [typeCodes, List.mem_cons, List.not_mem_nil, or_false, not_or] at h
  obtain ⟨h1, h2, h3, h4, h5⟩ := h
  have hd : decode s.cfg (.format tf use) = .error (.unassignedType (tfType tf)) := by
    rw [decode, decodeFormat, if_neg h1, if_neg h2, if_neg h3, if_neg h4, if_neg h5]
  simp only [runRequest, hd]

end RunRequest

/-- Every type but SYN, CONNECT and DATA has the BARE body (rules R72, R86). -/
theorem bodyFormat_bare {c : Cfg} {t : TypeCode} (h : t ∉ [c.tSyn, c.tConnect, c.tData]) : bodyFormat c t = .bare := by
  simp only [List.mem_cons, List.not_mem_nil, or_false, not_or] at h
  obtain ⟨hs, hc, hd⟩ := h
  rw [bodyFormat, if_neg (not_or.2 ⟨hs, hc⟩), if_neg hd]

/-- A type with no row has the BARE body. -/
theorem bodyFormat_unassigned {c : Cfg} {t : TypeCode} (h : t ∉ typeCodes c) : bodyFormat c t = .bare :=
  bodyFormat_bare (fun hm => h (List.mem_append_left [c.tDisconnect, c.tPing] hm))

/-! A row applied to a frame or a packet with its own type. -/

/-- The type+flags word stands after the two channel bytes of a row's frame. -/
theorem le16At_rowFrame (type : TypeCode) (flags : FlagSet) (src dst : Byte) (rest : Bytes) :
    le16At (rowFrame type flags src dst rest) 2 = typeFlagsWord flags type := by
  rw [rowFrame, List.append_assoc]
  exact le16At_append [src, dst] _ rest

/-- With the body format of its type, a row parses as PARSE does. -/
theorem applyFormat_parse {s : State} {type : TypeCode} {body : BodyFormat} (h : bodyFormat s.cfg type = body) (flags : FlagSet)
    (src dst : Byte) (rest : Bytes) :
    applyFormat type body flags (.parse src dst rest) s = exec (.parse (rowFrame type flags src dst rest)) s := by
  subst h
  show _ = answer ((parseFrame s.cfg (rowFrame type flags src dst rest)).map .packet) s
  rw [parseFrame, le16At_rowFrame, tfType_typeFlagsWord]
  rfl

/-- Under valid straps a request with a type that has no row is run with the BARE body. -/
theorem step_unassigned {s : State} {tf : BitVec 16} {use : FormatUse} {rest : List Input} (hc : cfgValid s.cfg = true)
    (hs : s.sched = .request (.format tf use) :: rest) (ht : tfType tf ∉ typeCodes s.cfg) :
    step s = runUnassigned tf use (setSched s rest) :=
  (step_request hc hs).trans (runRequest_unassigned (s := setSched s rest) use ht)

theorem runUnassigned_parse {s : State} {tf : BitVec 16} (src dst : Byte) {tail : Bytes} (ht : tfType tf ∉ typeCodes s.cfg)
    (hl : tail.length + 4 ≤ s.cfg.maxFrame) :
    runUnassigned tf (.parse src dst tail) s = exec (.parse ([src, dst] ++ le16 tf ++ tail)) s := by
  have hfit : FormatUse.fits s.cfg (.parse src dst tail) = true := decide_eq_true hl
  rw [runUnassigned, if_pos hfit, execUnassignedType, applyFormat_parse (bodyFormat_unassigned ht), rowFrame,
    typeFlagsWord_eta]

theorem runUnassigned_overrun {s : State} (tf : BitVec 16) (src dst : Byte) {tail : Bytes} (hl : s.cfg.maxFrame < tail.length + 4) :
    runUnassigned tf (.parse src dst tail) s = .fault .frameBufferOverrun :=
  if_neg (by simpa [FormatUse.fits] using hl)

/-- Settles O2: the straps are tested first, then the schedule, then the operand's length; a type with no row runs as PARSE or SER does. -/
theorem stepStopsAndWaits : Obligations.StepStopsAndWaits := by
  refine ⟨fun s hc => ?straps, fun s hc hs => ?waits, fun s r rest i hc hs hd hw => ?overrun, fun s tf src dst tail rest hc hs ht hl => ?reads,
    fun s tf src dst tail rest hc hs ht hl => ?tooLong, fun s tf v rest hc hs ht => ?writes⟩
  case straps => exact if_neg (by simp [hc])
  case waits => rw [step, if_pos hc, takeNext, hs]
  case overrun => exact (step_request hc hs).trans (runRequest_overrun hd hw)
  case reads => exact (step_unassigned hc hs ht).trans (runUnassigned_parse src dst ht hl)
  case tooLong => exact (step_unassigned hc hs ht).trans (runUnassigned_overrun tf src dst hl)
  case writes => exact step_unassigned hc hs ht

/-- Settles O1: the step takes the request off the schedule and runs what it decodes to. -/
theorem stepRunsDecodedRequest : Obligations.StepRunsDecodedRequest := fun _ _ _ _ hc hs hd hw =>
  (step_request hc hs).trans (runRequest_exec hd hw)

end Sys2Proof.Machine
end

section
/-! SUPPORT. What PARSE answers: the lead, each format it reads, its strictness about length (spec/40_codec_wire.md rules R104 to R107); the
laws of re-encoding and of the round trip (rules R108, R112); and the packet-type rows (spec/30_encoding.md rule R84; log entry 7). -/

namespace Sys2Proof.Machine

open Sys2Proof.Safety

/-! PARSE and SER, by what they compute. -/

theorem exec_parse_ok {s : State} {buf : Bytes} {v : Packet} (h : parseFrame s.cfg buf = .ok v) :
    exec (.parse buf) s = .next (replied s 0x00 0 (.packet v)) := by
  show answer ((parseFrame s.cfg buf).map _) s = _
  rw [h]
  rfl

theorem exec_parse_error {s : State} {buf : Bytes} {x : Exception} (h : parseFrame s.cfg buf = .error x) :
    exec (.parse buf) s = .next (replied s (statusCode x) (statusCause x) .nothing) := by
  show answer ((parseFrame s.cfg buf).map _) s = _
  rw [h]
  rfl

/-- Where PARSE answers a packet, it read that packet. -/
theorem parseFrame_of_response {s t : State} {buf : Bytes} {v : Packet} (h : exec (.parse buf) s = .next t)
    (hr : t.response = some { status := 0x00, cause := 0, result := .packet v }) : parseFrame s.cfg buf = .ok v := by
  cases hp : parseFrame s.cfg buf with
  | error x =>
    cases (exec_parse_error hp).symm.trans h
    simp at hr
  | ok u =>
    cases (exec_parse_ok hp).symm.trans h
    cases hr
    rfl

/-- Where SER answers a frame, the packet passed its checks, and the frame is that packet's. -/
theorem serialise_of_response {s t : State} {v : Packet} {f : Bytes} (h : exec (.ser v) s = .next t)
    (hr : t.response = some { status := 0x00, cause := 0, result := .frame f }) :
    isSerialisable s.cfg v = true ∧ f = frameOf s.cfg s.key v := by
  have h : answer (serialise s v) s = .next t := h
  cases hp : serialise s v with
  | error x =>
    rw [hp] at h
    cases h
    simp [exceptionResponse] at hr
  | ok r =>
    obtain ⟨-, hv, rfl⟩ := serialise_ok hp
    rw [hp] at h
    cases h
    cases hr
    exact ⟨hv, rfl⟩

/-! An encoding as a frame of the layout table (rule R70). -/

/-- What lies between the common header and the checksum byte of an encoding. -/
def middleBytes (c : Cfg) (v : Packet) : Bytes :=
  bodyBytes (bodyFormat c v.type) v ++ tailBytes (tailOption c (bodyFormat c v.type) v.flags) v

theorem encodePacket_append (c : Cfg) (v : Packet) (ck : Byte) :
    encodePacket c v ++ [ck]
      = frameWith v.src v.dst (typeFlagsWord v.flags v.type) v.sessionId v.pktSig v.seq (middleBytes c v) ck := by
  simp [encodePacket, headerBytes, frameWith, middleBytes]

theorem tailBytes_length (tail : TailOption) (v : Packet) : (tailBytes tail v).length = tailLength v.payload.length tail := by
  cases tail with
  | size => exact sizedPayload_length v.payload
  | rest => rfl
  | nothing => rfl

/-- An encoding whose signatures have their length is, with its checksum byte, as long as rule R74 says. -/
theorem encodePacket_append_length {c : Cfg} {v : Packet} (ck : Byte) (hp : v.pktSig.length = 4)
    (hb : bodyFormat c v.type = .sig → v.connSig.length = 4) : (encodePacket c v ++ [ck]).length = frameLength c v := by
  rw [encodePacket_append, frameWith_length _ _ _ _ _ _ _ hp, middleBytes, List.length_append, bodyBytes_length hb, tailBytes_length,
    frameLength]
  omega

/-! The law of re-encoding. -/

/-- What PARSE says of the packet it returns: it encodes to the bytes that were read, it has version 0 and signatures of their length, a
sized payload fits its size field, and a field that means nothing has its default (rules R106, R108). -/
theorem parseFrame_ok_packet {c : Cfg} {buf : Bytes} {v : Packet} (h : parseFrame c buf = .ok v) :
    buf = encodePacket c v ++ [v.checksum] ∧ v.version = 0 ∧ v.pktSig.length = 4
    ∧ (bodyFormat c v.type = .sig → v.connSig.length = 4)
    ∧ (tailOption c (bodyFormat c v.type) v.flags = .size → v.payload.length ≤ 65535) ∧ v = canon c v := by
  obtain ⟨src, dst, tf, sid, sig, q, mid, ck, hsig, -, -, rfl, hread⟩ := parseFrame_ok h
  obtain ⟨rfl, hb, ht, hv⟩ := readFields_ok _ _ _ _ _ _ _ hsig _ _ hread
  have htype : tfType tf = v.type := (congrArg Packet.type hv).symm
  have hflags : tfFlags tf = v.flags := (congrArg Packet.flags hv).symm
  have htf : tf = typeFlagsWord v.flags v.type := by rw [← htype, ← hflags, typeFlagsWord_eta]
  have hver : v.version = 0 := congrArg Packet.version hv
  obtain rfl : v.src = src := congrArg Packet.src hv
  obtain rfl : v.dst = dst := congrArg Packet.dst hv
  obtain rfl : v.sessionId = sid := congrArg Packet.sessionId hv
  obtain rfl : v.pktSig = sig := congrArg Packet.pktSig hv
  obtain rfl : v.seq = q := congrArg Packet.seq hv
  obtain rfl : v.checksum = ck := congrArg Packet.checksum hv
  simp only [htype, hflags] at hb ht hv ⊢
  refine ⟨?_, hver, hsig, hb, ht, hv.trans ?_⟩
  · rw [encodePacket_append, ← htf]
    rfl
  · simp only [canon, headerPacket, hver, htype, hflags]

/-- Settles O12: the bytes between header and checksum are the body and the tail of the packet that was read from them. -/
theorem parsedPacketReencodes : Obligations.ParsedPacketReencodes := by
  intro s t buf v _ h hr
  exact (parseFrame_ok_packet (parseFrame_of_response h hr)).1

/-! The law of the round trip. -/

/-- The frame of a serialisable packet with both channels in range parses to the canonical packet with the frame's checksum. -/
theorem parseFrame_frameOf {c : Cfg} {v : Packet} (k : Byte) (hv : isSerialisable c v = true) (hs : inChannelRange v.src)
    (hd : inChannelRange v.dst) :
    parseFrame c (frameOf c k v) = .ok { canon c v with checksum := checksum (encodePacket c v) k } := by
  obtain ⟨hver, hfields⟩ := isSerialisable_iff.1 hv
  obtain ⟨hp, hb, -, ht, -⟩ := fieldFault_none hfields
  rw [frameOf, encodePacket_append, parseFrame_frameWith c _ _ _ _ _ hp hs hd, tfType_typeFlagsWord, tfFlags_typeFlagsWord, middleBytes,
    readFields_encoded _ _ _ _ _ _ hp _ _ v hb ht]
  simp only [canon, headerPacket, hver, tfType_typeFlagsWord, tfFlags_typeFlagsWord]

/-- Settles O16: the frame is that of a serialisable packet, and a unit with the same straps reads it back. -/
theorem serialisedFrameParsesBack : Obligations.SerialisedFrameParsesBack := by
  intro s t p v f _ h hr hsrc hdst hcfg
  obtain ⟨hv, rfl⟩ := serialise_of_response h hr
  exact exec_parse_ok (by rw [hcfg, parseFrame_frameOf _ hv hsrc hdst])

/-- Settles O13: each field that means nothing is its default, and the checks of SER follow from the layout that was read. -/
theorem parsedPacketIsCanonical : Obligations.ParsedPacketIsCanonical := by
  intro s t buf v _ h hr
  obtain ⟨rfl, hver, hp, hb, ht, hcanon⟩ := parseFrame_ok_packet (parseFrame_of_response h hr)
  have hconn : v.connSig = if bodyFormat s.cfg v.type = .sig then v.connSig else [0, 0, 0, 0] := congrArg Packet.connSig hcanon
  have hpay : v.payload = if tailOption s.cfg (bodyFormat s.cfg v.type) v.flags = .nothing then [] else v.payload :=
    congrArg Packet.payload hcanon
  refine ⟨hcanon.symm, hver, hp, ?_, fun hfit => isSerialisable_iff.2 ⟨hver, fieldFault_eq_none_iff.2 ⟨hp, hb, fun hn => ?_, ht, ?_⟩⟩⟩
  · by_cases hs : bodyFormat s.cfg v.type = .sig
    · exact hb hs
    · rw [hconn, if_neg hs]
      rfl
  · rw [hpay, if_pos hn]
    rfl
  · rwa [encodePacket_append_length v.checksum hp hb] at hfit

/-! CVER against PARSE and SER. -/

/-- Settles O23: the frame is its packet's encoding and its packet's checksum, which is what CVER compares. -/
theorem verifyAgreesWithParse : Obligations.VerifyAgreesWithParse := by
  intro s t f v _ hk h hr
  rw [(parseFrame_ok_packet (parseFrame_of_response h hr)).1]
  exact exec_cver_append _ _ hk

/-- Settles O24: the last byte of the frame is the checksum of the bytes before it under that key. -/
theorem serialisedFrameVerifies : Obligations.SerialisedFrameVerifies := by
  intro s t p v f h hr hk hkey
  obtain ⟨-, rfl⟩ := serialise_of_response h hr
  rw [frameOf, exec_cver_append _ _ hk, hkey, decide_eq_true rfl]

/-! The lead (rule R104). -/

theorem checkLead_of_error {buf : Bytes} {x : Exception} (h : detectVersion buf = .error x) : checkLead buf = .error x := by
  rw [checkLead, h]

theorem checkLead_of_tagged {buf : Bytes} {ver : Byte} (h : detectVersion buf = .ok (ver, true)) :
    checkLead buf = .error (.unsupportedVersion ver) := by
  rw [checkLead, h]
  rfl

theorem checkLead_of_short {buf : Bytes} {ver : Byte} (h : detectVersion buf = .ok (ver, false)) (hl : buf.length < 12) :
    checkLead buf = .error (.parseError .short) := by
  rw [checkLead, h]
  exact if_pos hl

theorem parseFrame_of_lead {c : Cfg} {buf : Bytes} {x : Exception} (h : checkLead buf = .error x) : parseFrame c buf = .error x := by
  rw [parseFrame, parseAs, h]

/-- Settles O9: PARSE ends with what the check of the lead finds, which version detection decides. -/
theorem parseRefusesLead : Obligations.ParseRefusesLead := by
  intro s
  refine ⟨fun buf h => ?_, fun b0 b1 rest hc ht => ?_, ?_, fun b2 rest => ?_, fun b0 b1 rest hc hl => ?_⟩
  · exact exec_parse_error (parseFrame_of_lead (checkLead_of_error (detectVersion_short h)))
  · exact exec_parse_error (parseFrame_of_lead (checkLead_of_error (detectVersion_badLead rest hc ht)))
  · exact exec_parse_error (x := .parseError .short) rfl
  · exact exec_parse_error (parseFrame_of_lead (checkLead_of_tagged (detectVersion_tagged b2 rest)))
  · exact exec_parse_error (parseFrame_of_lead (checkLead_of_short (detectVersion_untagged rest hc.1 hc.2) (Nat.add_lt_add_right hl 2)))

/-! The formats (rules R72 to R75). -/

section Formats

variable {s : State} {src dst : Byte} {tf : BitVec 16} (sid : Byte) {sig : Bytes} (q : SeqId) {mid : Bytes} (ck : Byte)
  (hs : inChannelRange src) (hd : inChannelRange dst) (hsig : sig.length = 4) {body : BodyFormat} {tail : TailOption}
  (hbody : bodyFormat s.cfg (tfType tf) = body) (htail : tailOption s.cfg body (tfFlags tf) = tail)

include hs hd hsig hbody htail

/-- A frame that holds the body and the tail of `v`, in the format of its type and flags, is read as those and defaults elsewhere. -/
theorem exec_parse_format (v : Packet) (hmid : mid = bodyBytes body v ++ tailBytes tail v) (hb : body = .sig → v.connSig.length = 4)
    (ht : tail = .size → v.payload.length ≤ 65535) :
    exec (.parse (frameWith src dst tf sid sig q mid ck)) s = .next (replied s 0x00 0 (.packet { headerPacket src dst tf sid sig q ck with
      fragId := if body = .frag then v.fragId else 0
      connSig := if body = .sig then v.connSig else [0, 0, 0, 0]
      payload := if tail = .nothing then [] else v.payload })) := by
  subst hbody htail hmid
  exact exec_parse_ok ((parseFrame_frameWith _ _ _ _ _ _ hsig hs hd).trans (readFields_encoded _ _ _ _ _ _ hsig _ _ v hb ht))

/-- What PARSE answers for a frame that does not read in the format of its type and flags. -/
theorem exec_parse_format_error {x : Exception} (h : readFields body tail (frameWith src dst tf sid sig q mid ck) = .error x) :
    exec (.parse (frameWith src dst tf sid sig q mid ck)) s = .next (replied s (statusCode x) (statusCause x) .nothing) := by
  subst hbody htail
  exact exec_parse_error ((parseFrame_frameWith _ _ _ _ _ _ hsig hs hd).trans h)

end Formats

/-- Settles O10: in each format the bytes after the header are the body and the tail of a packet with these fields. -/
theorem parseReadsEveryFormat : Obligations.ParseReadsEveryFormat := by
  intro s src dst tf sid sig q csig frag pl ck hc hs hd hsig hcsig
  refine ⟨fun ht => ⟨fun hz => ?sig, fun hz hl => ?sigSize⟩, fun ht => ⟨fun hz ha => ?frag, fun hz ha => ?fragRest, fun hz hl => ?fragSize⟩,
    fun ht => ⟨fun hz => ?bare, fun hz hl => ?bareSize⟩⟩
  case sig =>
    exact exec_parse_format sid q ck hs hd hsig (bodyFormat_sig.2 ht) (tailOption_nothing hz nofun)
      { defaultPacket 0 with connSig := csig } (List.append_nil _).symm (fun _ => hcsig) nofun
  case sigSize =>
    exact exec_parse_format sid q ck hs hd hsig (bodyFormat_sig.2 ht) (tailOption_size _ hz)
      { defaultPacket 0 with connSig := csig, payload := pl } rfl (fun _ => hcsig) (fun _ => hl)
  case frag =>
    exact exec_parse_format sid q ck hs hd hsig ((bodyFormat_frag hc).2 ht) (tailOption_nothing hz (fun _ => ha))
      { defaultPacket 0 with fragId := frag } rfl nofun nofun
  case fragRest =>
    exact exec_parse_format sid q ck hs hd hsig ((bodyFormat_frag hc).2 ht) (tailOption_rest hz ha)
      { defaultPacket 0 with fragId := frag, payload := pl } rfl nofun nofun
  case fragSize =>
    exact exec_parse_format sid q ck hs hd hsig ((bodyFormat_frag hc).2 ht) (tailOption_size _ hz)
      { defaultPacket 0 with fragId := frag, payload := pl } rfl nofun (fun _ => hl)
  case bare =>
    exact exec_parse_format sid q ck hs hd hsig (bodyFormat_bare ht) (tailOption_nothing hz nofun) (defaultPacket 0) rfl nofun nofun
  case bareSize =>
    exact exec_parse_format sid q ck hs hd hsig (bodyFormat_bare ht) (tailOption_size _ hz)
      { defaultPacket 0 with payload := pl } rfl nofun (fun _ => hl)

/-! Strictness about length (rules R104, R105, R107). -/

section Strict

variable (src dst : Byte) (tf : BitVec 16) (sid : Byte) {sig : Bytes} (q : SeqId) {mid : Bytes} (ck : Byte) (hsig : sig.length = 4)
  {body : BodyFormat} (tail : TailOption)

include hsig

theorem readFields_bodyShort (h : mid.length < bodyLength body) :
    readFields body tail (frameWith src dst tf sid sig q mid ck) = .error (.parseError .short) := by
  rw [readFields_frameWith _ _ _ _ _ _ _ hsig, if_pos h]

theorem readFields_sizeShort (hb : bodyLength body ≤ mid.length) (h : mid.length < bodyLength body + 2) :
    readFields body .size (frameWith src dst tf sid sig q mid ck) = .error (.parseError .short) := by
  rw [readFields_frameWith _ _ _ _ _ _ _ hsig, if_neg hb.not_gt]
  exact if_pos h

theorem readFields_payloadShort (hb : bodyLength body + 2 ≤ mid.length)
    (h : mid.length < bodyLength body + 2 + (le16At mid (bodyLength body)).toNat) :
    readFields body .size (frameWith src dst tf sid sig q mid ck) = .error (.parseError .short) := by
  rw [readFields_frameWith _ _ _ _ _ _ _ hsig, if_neg (by omega)]
  exact (if_neg hb.not_gt).trans (if_pos h)

theorem readFields_payloadLong (h : bodyLength body + 2 + (le16At mid (bodyLength body)).toNat < mid.length) :
    readFields body .size (frameWith src dst tf sid sig q mid ck) = .error (.parseError .length) := by
  rw [readFields_frameWith _ _ _ _ _ _ _ hsig, if_neg (by omega)]
  exact (if_neg (by omega)).trans ((if_neg h.not_gt).trans (if_pos h.ne'))

theorem readFields_bodyLong (h : bodyLength body < mid.length) :
    readFields body .nothing (frameWith src dst tf sid sig q mid ck) = .error (.parseError .length) := by
  rw [readFields_frameWith _ _ _ _ _ _ _ hsig, if_neg h.not_gt]
  exact if_pos h.ne'

end Strict

/-- Settles O11: each clause is one test of reading the fields in the frame's own format, reached once those before it are passed. -/
theorem parseIsStrictAboutLength : Obligations.ParseIsStrictAboutLength := by
  intro s src dst tf sid sig q mid ck hc hs hd hsig body hlen short long
  rw [← bodyLength_bodyFormat] at hlen
  subst hlen
  refine ⟨fun h => ?_, fun hz hb h => ?_, fun hz hb h => ?_, fun hz h => ?_, fun hz ha h => ?_⟩
  · exact exec_parse_format_error sid q ck hs hd hsig rfl rfl (readFields_bodyShort _ _ _ _ _ _ hsig _ h)
  · exact exec_parse_format_error sid q ck hs hd hsig rfl (tailOption_size _ hz) (readFields_sizeShort _ _ _ _ _ _ hsig hb h)
  · exact exec_parse_format_error sid q ck hs hd hsig rfl (tailOption_size _ hz) (readFields_payloadShort _ _ _ _ _ _ hsig hb h)
  · exact exec_parse_format_error sid q ck hs hd hsig rfl (tailOption_size _ hz) (readFields_payloadLong _ _ _ _ _ _ hsig h)
  · exact exec_parse_format_error sid q ck hs hd hsig rfl (tailOption_nothing hz (fun hf => ha ((bodyFormat_frag hc).1 hf)))
      (readFields_bodyLong _ _ _ _ _ _ hsig h)

/-! The packet-type rows. -/

theorem bodyFormat_tSyn (c : Cfg) : bodyFormat c c.tSyn = .sig := bodyFormat_sig.2 (.inl rfl)

theorem bodyFormat_tConnect (c : Cfg) : bodyFormat c c.tConnect = .sig := bodyFormat_sig.2 (.inr rfl)

section Rows

variable {c : Cfg} (hc : cfgValid c = true)

include hc

theorem bodyFormat_tData : bodyFormat c c.tData = .frag := (bodyFormat_frag hc).2 rfl

theorem bodyFormat_tDisconnect : bodyFormat c c.tDisconnect = .bare := by
  obtain ⟨-, -, hs, -, -, hn, -, hd, -⟩ := types_distinct hc
  exact bodyFormat_bare (by simp [hs.symm, hn.symm, hd.symm])

theorem bodyFormat_tPing : bodyFormat c c.tPing = .bare := by
  obtain ⟨-, -, -, hs, -, -, hn, -, hd, -⟩ := types_distinct hc
  exact bodyFormat_bare (by simp [hs.symm, hn.symm, hd.symm])

end Rows

/-- Settles O17: each row has the body format of its type; writing, it is SER of the packet with its type and flags. -/
theorem packetTypeRowsAgreeWithCodec : Obligations.PacketTypeRowsAgreeWithCodec := by
  intro s flags src dst rest v hc row hrow
  simp only [List.mem_cons, List.not_mem_nil, or_false] at hrow
  rcases hrow with rfl | rfl | rfl | rfl | rfl
  · exact ⟨applyFormat_parse (bodyFormat_tSyn _) .., rfl⟩
  · exact ⟨applyFormat_parse (bodyFormat_tConnect _) .., rfl⟩
  · exact ⟨applyFormat_parse (bodyFormat_tData hc) .., rfl⟩
  · exact ⟨applyFormat_parse (bodyFormat_tDisconnect hc) .., rfl⟩
  · exact ⟨applyFormat_parse (bodyFormat_tPing hc) .., rfl⟩

/-- Settles O19: each row writes as SER does the packet with its type and flags. -/
theorem packetTypeRowsWrite : Obligations.PacketTypeRowsWrite := by
  intro s flags v hk row hrow hv
  simp only [List.mem_cons, List.not_mem_nil, or_false] at hrow
  rcases hrow with rfl | rfl | rfl | rfl | rfl <;> exact exec_ser_of_admitted hk hv

/-- A row's frame is a frame of the layout table. -/
theorem rowFrame_eq_frameWith (type : TypeCode) (flags : FlagSet) (src dst sid : Byte) (sig : Bytes) (q : SeqId) (mid : Bytes) (ck : Byte) :
    rowFrame type flags src dst ([sid] ++ sig ++ le16 q ++ mid ++ [ck]) = frameWith src dst (typeFlagsWord flags type) sid sig q mid ck := by
  simp [rowFrame, frameWith]

/-- A row reads a frame that holds the body and the tail of `v`, in the format of the row's type and the flags, as those. -/
theorem exec_row_parse {s : State} {type : TypeCode} {flags : FlagSet} {src dst : Byte} (sid : Byte) {sig : Bytes} (q : SeqId) {mid : Bytes}
    (ck : Byte) (hs : inChannelRange src) (hd : inChannelRange dst) (hsig : sig.length = 4) {body : BodyFormat} {tail : TailOption}
    (hbody : bodyFormat s.cfg type = body) (htail : tailOption s.cfg body flags = tail)
    (v : Packet) (hmid : mid = bodyBytes body v ++ tailBytes tail v) (hb : body = .sig → v.connSig.length = 4)
    (ht : tail = .size → v.payload.length ≤ 65535) :
    applyFormat type body flags (.parse src dst ([sid] ++ sig ++ le16 q ++ mid ++ [ck])) s
      = .next (replied s 0x00 0 (.packet { headerPacket src dst (typeFlagsWord flags type) sid sig q ck with
        fragId := if body = .frag then v.fragId else 0
        connSig := if body = .sig then v.connSig else [0, 0, 0, 0]
        payload := if tail = .nothing then [] else v.payload })) := by
  rw [applyFormat_parse hbody, rowFrame_eq_frameWith]
  exact exec_parse_format sid q ck hs hd hsig ((congrArg _ (tfType_typeFlagsWord flags type)).trans hbody)
    ((congrArg _ (tfFlags_typeFlagsWord flags type)).trans htail) v hmid hb ht

/-- Settles O18: without HAS_SIZE and ACK the tail is the inferred payload for DATA and nothing for every other row. -/
theorem packetTypeRowsRead : Obligations.PacketTypeRowsRead := by
  intro s flags src dst sid sig q csig frag pl ck hc hs hd hsig hcsig hz ha after head
  refine ⟨?syn, ?connect, ?data, ?disconnect, ?ping⟩
  case syn =>
    exact exec_row_parse sid q ck hs hd hsig (bodyFormat_tSyn _) (tailOption_nothing hz nofun)
      { defaultPacket 0 with connSig := csig } (List.append_nil _).symm (fun _ => hcsig) nofun
  case connect =>
    exact exec_row_parse sid q ck hs hd hsig (bodyFormat_tConnect _) (tailOption_nothing hz nofun)
      { defaultPacket 0 with connSig := csig } (List.append_nil _).symm (fun _ => hcsig) nofun
  case data =>
    exact exec_row_parse sid q ck hs hd hsig (bodyFormat_tData hc) (tailOption_rest hz ha)
      { defaultPacket 0 with fragId := frag, payload := pl } rfl nofun nofun
  case disconnect =>
    exact exec_row_parse sid q ck hs hd hsig (bodyFormat_tDisconnect hc) (tailOption_nothing hz nofun) (defaultPacket 0) rfl nofun nofun
  case ping =>
    exact exec_row_parse sid q ck hs hd hsig (bodyFormat_tPing hc) (tailOption_nothing hz nofun) (defaultPacket 0) rfl nofun nofun

/-! CSUM and the order of the words. -/

/-- The checksum adds words, and a sum does not depend on the order (rule R121). -/
theorem checksum_swap_words {a v w : Bytes} (z : Bytes) (k : Byte) (ha : a.length % 4 = 0) (hv : v.length = 4) (hw : w.length = 4) :
    checksum (a ++ v ++ w ++ z) k = checksum (a ++ w ++ v ++ z) k := by
  have hv4 : v.length % 4 = 0 := by omega
  have hw4 : w.length % 4 = 0 := by omega
  simp only [checksum, List.append_assoc, wordSum_append _ ha, wordSum_append _ hv4, wordSum_append _ hw4, remainderSum_append _ ha,
    remainderSum_append _ hv4, remainderSum_append _ hw4]
  rw [add_left_comm (wordSum v)]

/-- CSUM reads its operand through the checksum only. -/
theorem exec_csum_congr {s : State} {b d : Bytes} (h : checksum b s.key = checksum d s.key) : exec (.csum b) s = exec (.csum d) s := by
  show execCsum b s = execCsum d s
  rw [execCsum, execCsum, h]

/-- Settles O21: the two strings have the same checksum under every key. -/
theorem checksumIgnoresWordOrder : Obligations.ChecksumIgnoresWordOrder := fun _ _ _ _ z ha hv hw =>
  exec_csum_congr (checksum_swap_words z _ ha hv hw)

end Sys2Proof.Machine
end

section
/-! SUPPORT. What WADD, WCLEAR and SEND answer and what TICK and FIRE do, each by the test that decides it (spec/43_window.md rules R163, R170;
spec/44_send_and_timers.md rules R180 to R194). -/

namespace Sys2Proof.Machine

open Sys2Proof.Safety

/-! WADD. -/

section Wadd

variable {s : State} {v : Packet} (timer : Option Nat)

theorem exec_wadd_full (h : s.window.length = s.cfg.cap) : exec (.wadd v timer) s = .next (replied s 0x00 0 (.verdict false)) :=
  if_pos (by rw [isFull_eq_decide, decide_eq_true h])

theorem exec_wadd_stored (hroom : s.window.length ≠ s.cfg.cap) (hk : s.keyValid = true) (hv : isSerialisable s.cfg v = true)
    (hfree : lookup s.window v.seq = none) :
    exec (.wadd v timer) s
      = .next (replied { s with window := put s.window { pkt := v, timer := timer } } 0x00 0 (.verdict true)) := by
  rcases execWadd_next v timer s with ⟨-, hno⟩ | ⟨hadd, -⟩
  · exact absurd ⟨hroom, hk, hv, hfree⟩ hno
  · exact hadd

variable (hroom : s.window.length ≠ s.cfg.cap)

include hroom

theorem exec_wadd_of_fault {x : Exception} (h : admissionFault s v = some x) :
    exec (.wadd v timer) s = .next (replied s (statusCode x) (statusCause x) .nothing) := by
  show execWadd v timer s = _
  rw [execWadd, if_neg (by simpa [isFull_eq_decide] using hroom), h]
  rfl

theorem exec_wadd_dupSeq (hk : s.keyValid = true) (hv : isSerialisable s.cfg v = true) (h : lookup s.window v.seq ≠ none) :
    exec (.wadd v timer) s = .next (replied s 0x13 0 .nothing) := by
  show execWadd v timer s = _
  rw [execWadd, if_neg (by simpa [isFull_eq_decide] using hroom), admissionFault_eq_none hk hv]
  exact if_pos (Option.isSome_iff_ne_none.2 h)

end Wadd

/-- Settles O31: the window after is the one before with the new entry put in its place. -/
theorem waddInsertsEntry : Obligations.WaddInsertsEntry := fun s v timer hroom hk hv hfree =>
  ⟨put s.window { pkt := v, timer := timer }, exec_wadd_stored timer hroom hk hv hfree,
    lookup_put_self s.window { pkt := v, timer := timer }, fun _ hq => lookup_put_other _ _ hq.symm, length_put hfree, fun hw => wf_put hw _⟩

/-- Settles O32: WADD asks whether the window is full, then makes the checks of SER, then looks the key up. -/
theorem waddRefusalsInOrder : Obligations.WaddRefusalsInOrder := by
  intro s v timer
  refine ⟨exec_wadd_full timer, fun hroom => ⟨fun hv => ?version, fun hv hk => ?noKey, fun hv hk hno => ?fields, exec_wadd_dupSeq timer hroom⟩⟩
  case version => exact exec_wadd_of_fault timer hroom (admissionFault_version hv)
  case noKey => exact exec_wadd_of_fault timer hroom (admissionFault_noKey hv hk)
  case fields =>
    obtain ⟨x, hx, -⟩ := admissionFault_field hv hk hno
    rw [exec_wadd_of_fault timer hroom hx, exec_ser_of_fault hx]

/-! WCLEAR. -/

theorem exec_wclear (s : State) : exec .wclear s = .next (replied { s with window := [] } 0x00 0 (.count s.window.length)) := rfl

/-! SEND: the packet with its sequence id (rule R182). -/

section Assigned

variable {s : State} {v : Packet}

theorem assigned_of_fresh (h : isFresh s.cfg v.flags = true) : assigned s v = { v with seq := s.seq } := if_pos h

theorem assigned_of_not_fresh (h : isFresh s.cfg v.flags = false) : assigned s v = v := if_neg (by simp [h])

theorem nextSeq_of_fresh (h : isFresh s.cfg v.flags = true) : nextSeq s v = s.seq + 1 := if_pos h

theorem nextSeq_of_not_fresh (h : isFresh s.cfg v.flags = false) : nextSeq s v = s.seq := if_neg (by simp [h])

@[simp] theorem assigned_flags (s : State) (v : Packet) : (assigned s v).flags = v.flags := by
  unfold assigned
  split <;> rfl

/-- No check of rule R109 looks at the sequence id. -/
@[simp] theorem admissionFault_assigned (s : State) (v : Packet) : admissionFault s (assigned s v) = admissionFault s v := by
  unfold assigned
  split <;> rfl

theorem isFresh_eq_false {c : Cfg} {f : FlagSet} : isFresh c f = false ↔ f &&& c.fAck ≠ 0 ∨ f &&& c.fMultiAck ≠ 0 := by
  rw [← Bool.not_eq_true, isFresh_eq_true, not_and_or]

theorem isTracked_eq_false {c : Cfg} {f : FlagSet} :
    isTracked c f = false ↔ ¬ (f &&& c.fAck = 0 ∧ f &&& c.fMultiAck = 0 ∧ f &&& (c.fNeedAck ||| c.fReliable) ≠ 0) := by
  rw [← Bool.not_eq_true, isTracked_eq_true]

/-- A tracked packet is fresh. -/
theorem isFresh_of_isTracked {c : Cfg} {f : FlagSet} (h : isTracked c f = true) : isFresh c f = true := by
  obtain ⟨ha, hm, -⟩ := isTracked_eq_true.1 h
  exact isFresh_eq_true.2 ⟨ha, hm⟩

theorem registered_of_tracked {u : Packet} (h : isTracked s.cfg u.flags = true) :
    registered s u = put s.window { pkt := u, timer := some s.cfg.rtoTicks } := if_pos h

theorem registered_of_not_tracked {u : Packet} (h : isTracked s.cfg u.flags = false) : registered s u = s.window :=
  if_neg (by simp [h])

end Assigned

/-! SEND, once the packet is not dropped. -/

theorem isDropped_eq_false {s : State} {v : Packet} :
    isDropped s v = false ↔ ¬ (s.window.length = s.cfg.cap ∧ (isTracked s.cfg v.flags = true ∨ s.cfg.fullDropsUntracked = true)) := by
  rw [← Bool.not_eq_true, isDropped_eq_true]

section Send

variable {s : State} {v : Packet} (hd : isDropped s v = false)

include hd

theorem exec_send_of_fault {x : Exception} (h : admissionFault s v = some x) :
    exec (.send v) s = .next (replied s (statusCode x) (statusCause x) .nothing) := by
  show execSend v s = _
  rw [execSend, if_neg (by simp [hd]), admissionFault_assigned, h]
  rfl

theorem exec_send_dupSeq (ha : admissionFault s v = none) (ht : isTracked s.cfg v.flags = true) (h : lookup s.window (assigned s v).seq ≠ none) :
    exec (.send v) s = .next (replied s 0x13 0 .nothing) := by
  show execSend v s = _
  rw [execSend, if_neg (by simp [hd]), admissionFault_assigned, ha]
  exact if_pos (by rw [ht, Option.isSome_iff_ne_none.2 h]; rfl)

/-- The commit of rule R180: nothing is left that can fail. -/
theorem exec_send_sent {u : Packet} (hu : assigned s v = u) (ha : admissionFault s v = none)
    (hfree : isTracked s.cfg v.flags = true → lookup s.window u.seq = none) :
    exec (.send v) s
      = .next (replied { s with seq := nextSeq s v, tx := s.tx ++ [frameOf s.cfg s.key u], window := registered s u } 0x00 0
          (.sendReport .sent u.seq (frameOf s.cfg s.key u))) := by
  show execSend v s = _
  rw [execSend, if_neg (by simp [hd]), admissionFault_assigned, ha, hu]
  refine if_neg (fun h => ?_)
  obtain ⟨ht, hsome⟩ := Bool.and_eq_true_iff.1 h
  simp [hfree ht] at hsome

end Send

/-- Settles O36: a tracked packet is fresh, so it takes SEQ, and the entry is put under a key that is free. -/
theorem sendRegistersTracked : Obligations.SendRegistersTracked := by
  intro s v u hu hroom hack hmulti hneed hk hv hfree f
  have ht : isTracked s.cfg v.flags = true := isTracked_eq_true.2 ⟨hack, hmulti, hneed⟩
  have hfresh := isFresh_of_isTracked ht
  subst hu
  have hsent := exec_send_sent (isDropped_eq_false.2 fun h => hroom h.1) (assigned_of_fresh hfresh) (admissionFault_eq_none (v := v) hk hv)
    (fun _ => hfree)
  rw [nextSeq_of_fresh hfresh, registered_of_tracked (u := { v with seq := s.seq }) ht] at hsent
  exact ⟨s.seq + 1, _, hsent, BitVec.toNat_add .., lookup_put_self s.window { pkt := { v with seq := s.seq }, timer := some s.cfg.rtoTicks },
    fun q hq => lookup_put_other _ _ hq.symm, length_put hfree, fun hw => wf_put hw _⟩

/-- Settles O37: a packet that is not tracked is not registered, and only a fresh one takes SEQ. -/
theorem sendTransmitsUntracked : Obligations.SendTransmitsUntracked := by
  intro s v hroom hk
  have notDropped : isTracked s.cfg v.flags = false → isDropped s v = false := fun ht => isDropped_eq_false.2 fun ⟨hfull, hkind⟩ => by
    rcases hroom with hroom | hroom
    · exact hroom hfull
    · simp [ht, hroom] at hkind
  refine ⟨fun hack hmulti hneed u hu hv => ?fresh, fun hack hv => ?ack⟩
  case fresh =>
    have ht : isTracked s.cfg v.flags = false := isTracked_eq_false.2 fun h => h.2.2 hneed
    have hfresh : isFresh s.cfg v.flags = true := isFresh_eq_true.2 ⟨hack, hmulti⟩
    subst hu
    have hsent := exec_send_sent (notDropped ht) (assigned_of_fresh hfresh) (admissionFault_eq_none (v := v) hk hv) (by simp [ht])
    rwa [nextSeq_of_fresh hfresh, registered_of_not_tracked (u := { v with seq := s.seq }) ht] at hsent
  case ack =>
    have hfresh : isFresh s.cfg v.flags = false := isFresh_eq_false.2 hack
    have ht : isTracked s.cfg v.flags = false := Bool.eq_false_iff.2 fun h => by simp [isFresh_of_isTracked h] at hfresh
    have hsent := exec_send_sent (notDropped ht) (assigned_of_not_fresh hfresh) (admissionFault_eq_none hk hv) (by simp [ht])
    rwa [nextSeq_of_not_fresh hfresh, registered_of_not_tracked ht] at hsent

/-- Settles O39: SEND makes the checks of SER on the packet, then looks up the key a tracked packet would take. -/
theorem sendRefusalsInOrder : Obligations.SendRefusalsInOrder := by
  intro s v tracked hno
  have hd : isDropped s v = false := isDropped_eq_false.2 fun h => hno ⟨h.1, h.2.imp_left isTracked_eq_true.1⟩
  refine ⟨fun hv => ?version, fun hv hk => ?noKey, fun hv hk hbad => ?fields, fun hk hv hin ht => ?dupSeq⟩
  case version => exact exec_send_of_fault hd (admissionFault_version hv)
  case noKey => exact exec_send_of_fault hd (admissionFault_noKey hv hk)
  case fields =>
    obtain ⟨x, hx, -⟩ := admissionFault_field hv hk hbad
    rw [exec_send_of_fault hd hx, exec_ser_of_fault hx]
  case dupSeq =>
    have ht : isTracked s.cfg v.flags = true := isTracked_eq_true.2 ht
    refine exec_send_dupSeq hd (admissionFault_eq_none hk hv) ht ?_
    rwa [assigned_of_fresh (isFresh_of_isTracked ht)]

/-! Events that are not enabled. -/

theorem exec_tick_disabled {s : State} (h : tickEnabled s = false) : exec .tick s = .next { s with response := none } :=
  if_neg (by simp [h])

theorem exec_fire_idle {s : State} {q : SeqId} (h : ∀ e, lookup s.window q = some e → e.timer ≠ some 0) :
    exec (.fire q) s = .next { s with response := none } := by
  rcases execFire_next q s with ⟨hidle, -⟩ | ⟨e, he, ht, -⟩
  · exact hidle
  · exact absurd ht (h e he)

theorem exec_fire_absent {s : State} {q : SeqId} (h : lookup s.window q = none) : exec (.fire q) s = .next { s with response := none } :=
  exec_fire_idle (fun e he => by simp [h] at he)

/-- Settles O41: an entry with timer 0 holds TICK back, and FIRE needs one under its key. -/
theorem disabledEventsDoNothing : Obligations.DisabledEventsDoNothing := by
  intro s
  refine ⟨fun ⟨e, he, ht⟩ => exec_tick_disabled ?_, fun q => exec_fire_absent, fun q e he ht => exec_fire_idle fun g hg => ?_⟩
  · exact Bool.eq_false_iff.2 fun hen => tickEnabled_eq_true.1 hen e he ht
  · obtain rfl : e = g := Option.some.inj (he.symm.trans hg)
    exact ht

/-- Settles O35: an empty window has no entry to fire and none to count. -/
theorem wclearEmptiesWindow : Obligations.WclearEmptiesWindow := fun s =>
  ⟨_, rfl, exec_wclear s, fun _ => exec_fire_absent rfl, exec_wclear _⟩

/-! FIRE against the transmission it repeats, against WACK, and against another FIRE. -/

theorem frameOf_dropLast (c : Cfg) (k : Byte) (v : Packet) : (frameOf c k v).dropLast = encodePacket c v := List.dropLast_concat

/-- Two frames of a packet have the same length, whatever the keys. -/
theorem frameOf_length_key (c : Cfg) (k l : Byte) (v : Packet) : (frameOf c k v).length = (frameOf c l v).length := by
  simp [frameOf]

/-- What SEND leaves of a tracked packet it reports as sent: the frame it reports, and the entry under the key it reports. -/
theorem exec_send_reported {s t : State} {v : Packet} {q : SeqId} {f : Bytes} (h : exec (.send v) s = .next t)
    (hr : t.response = some { status := 0x00, cause := 0, result := .sendReport .sent q f }) (ht : isTracked s.cfg v.flags = true) :
    ∃ u : Packet, f = frameOf s.cfg s.key u ∧ lookup t.window q = some { pkt := u, timer := some s.cfg.rtoTicks }
      ∧ t.cfg = s.cfg ∧ t.key = s.key := by
  rcases execSend_next v s with ⟨x, hx, hno⟩ | ⟨hsent, -⟩
  · cases hx.symm.trans h
    exact absurd (congrArg Response.result (Option.some.inj hr)) (hno q f)
  · cases hsent.symm.trans h
    obtain ⟨rfl, rfl⟩ : (assigned s v).seq = q ∧ frameOf s.cfg s.key (assigned s v) = f := by
      simpa [okResponse] using hr
    refine ⟨assigned s v, rfl, ?_, rfl, rfl⟩
    have hw := registered_of_tracked (s := s) (u := assigned s v) (by rwa [assigned_flags])
    exact (congrArg (lookup · _) hw).trans (lookup_put_self s.window { pkt := assigned s v, timer := some s.cfg.rtoTicks })

/-- Settles O43: both frames are those of the packet that SEND stored, and a frame reads the key in its last byte only. -/
theorem resendIsIdentical : Obligations.ResendIsIdentical := by
  intro s a b t v q f e hack hmulti hneed hsend hr he hcfg hb hfire
  obtain ⟨u, rfl, hu, hcfgA, hkeyA⟩ := exec_send_reported hsend hr (isTracked_eq_true.2 ⟨hack, hmulti, hneed⟩)
  obtain rfl : e = { pkt := u, timer := some s.cfg.rtoTicks } := Option.some.inj (he.symm.trans hu)
  cases (exec_fire_expired hb rfl).symm.trans hfire
  refine ⟨_, rfl, ?_, ?_, fun hkey => ?_⟩
  · rw [hcfg, hcfgA, frameOf_dropLast, frameOf_dropLast]
  · rw [hcfg, hcfgA]
    exact frameOf_length_key ..
  · rw [hcfg, hcfgA, hkey, hkeyA]

/-- Settles O45: after WACK there is no entry to fire; after FIRE the entry is there, re-timed, for WACK to remove. -/
theorem wackAgainstFire : Obligations.WackAgainstFire := fun s p _ he ht =>
  ⟨_, _, _, _, exec_wack_present he, exec_fire_absent (lookup_remove_self s.window p.seq), exec_fire_expired he ht,
    exec_wack_present (lookup_retime_self he _), (remove_retime ..).symm, lookup_remove_self .., rfl, rfl⟩

/-- Settles O46: neither FIRE touches the other's entry, and re-timing two keys commutes. -/
theorem fireOrderShowsOnlyOnTx : Obligations.FireOrderShowsOnlyOnTx := by
  intro s q r e g hqr he hte hg htg
  refine ⟨_, _, _, _, exec_fire_expired he hte, exec_fire_expired ((lookup_retime_other _ hqr _).trans hg) htg, exec_fire_expired hg htg,
    exec_fire_expired ((lookup_retime_other _ hqr.symm _).trans he) hte, List.append_assoc .., ?_⟩
  simp only [retime_comm s.window hqr, List.append_assoc, List.cons_append, List.nil_append]

/-! Runs of the clock. -/

/-- As long as the entry's timer is the least, `n` TICKs take `n` off it, and it stays the least. -/
theorem runTicks_countdown (n : Nat) {s : State} {q : SeqId} {e : Entry} {k : Nat} (hn : n ≤ k) (he : lookup s.window q = some e)
    (ht : e.timer = some k) (hleast : ∀ x ∈ s.window, ∀ j, x.timer = some j → k ≤ j) :
    ∃ t, runTicks n s = .next t ∧ lookup t.window q = some { e with timer := some (k - n) } ∧ t.tx = s.tx ∧ t.seq = s.seq
      ∧ ∀ x ∈ t.window, ∀ j, x.timer = some j → k - n ≤ j := by
  induction n generalizing s e k with
  | zero =>
    refine ⟨s, rfl, ?_, rfl, rfl, hleast⟩
    rw [he, Nat.sub_zero, ← ht]
  | succ n ih =>
    obtain ⟨k, rfl⟩ : ∃ m, k = m + 1 := ⟨k - 1, by omega⟩
    have hen : tickEnabled s = true := tickEnabled_eq_true.2 fun x hx h0 => by
      have := hleast x hx 0 h0
      omega
    have hstep := exec_tick_enabled hen
    have hleast' : ∀ x ∈ s.window.map tickEntry, ∀ j, x.timer = some j → k ≤ j := by
      intro x hx j hj
      obtain ⟨y, hy, rfl⟩ := List.mem_map.1 hx
      rw [tickEntry_timer] at hj
      obtain ⟨i, hi, rfl⟩ := Option.map_eq_some_iff.1 hj
      have := hleast y hy i hi
      omega
    have he' : lookup (s.window.map tickEntry) q = some { e with timer := some k } := by
      rw [lookup_tick_of_some he, tickEntry_of_succ ht]
    obtain ⟨t, hrun, hlook, htx, hseq, hrest⟩ :=
      ih (s := { s with window := s.window.map tickEntry, response := none }) (by omega) he' rfl hleast'
    refine ⟨t, ?_, by rwa [Nat.add_sub_add_right], htx, hseq, by rwa [Nat.add_sub_add_right]⟩
    rw [runTicks, hstep]
    exact hrun

/-- Settles O44: the least timer decides whether TICK is enabled. -/
theorem firesAfterExactlyItsTicks : Obligations.FiresAfterExactlyItsTicks := by
  intro s q e k he ht hleast n hn
  obtain ⟨t, hrun, hlook, htx, hseq, hrest⟩ := runTicks_countdown n hn he ht hleast
  refine ⟨t, hrun, hlook, htx, hseq, ?_⟩
  rw [Bool.eq_iff_iff, decide_eq_true_iff, tickEnabled_eq_true]
  constructor
  · intro hen
    have hpos : k - n ≠ 0 := fun h0 => hen _ (lookup_some hlook).1 (congrArg some h0)
    omega
  · intro hlt x hx h0
    have := hrest x hx 0 h0
    omega

end Sys2Proof.Machine
end

section
/-! SUPPORT. What a step can do, and what every instruction leaves: totality (spec/00_scope.md rule R12), the writers of each register and of
the window (spec/10_state.md rule R36, spec/43_window.md rule R171), the invariant (rules R39, R171, R232), reset, and the strict step. -/

namespace Sys2Proof.Machine

open Sys2Proof.Safety

/-! Totality. -/

theorem execCsum_next (b : Bytes) (s : State) : ∃ x, execCsum b s = .next (respond s x) := by
  unfold execCsum
  split <;> exact ⟨_, rfl⟩

theorem execCver_next (f : Bytes) (s : State) : ∃ x, execCver f s = .next (respond s x) := by
  unfold execCver
  split
  · exact ⟨_, rfl⟩
  · split <;> exact ⟨_, rfl⟩

theorem execMkcon_next (l r : Byte) (csig psig : Bytes) (s : State) : ∃ x, execMkcon l r csig psig s = .next (respond s x) := by
  unfold execMkcon
  split
  · exact ⟨_, rfl⟩
  · split <;> exact ⟨_, rfl⟩

theorem execTick_next (s : State) :
    execTick s = .next (silent (setWindow s (s.window.map tickEntry))) ∨ execTick s = .next (silent s) := by
  unfold execTick
  split
  · exact .inl rfl
  · exact .inr rfl

/-- Every meaning answers a next state. -/
theorem exec_next (i : Instr) (s : State) : ∃ t, exec i s = .next t := by
  have reply : ∀ {a : Answer}, (∃ x, a = .next (respond s x)) → ∃ t, a = .next t := fun ⟨_, hx⟩ => ⟨_, hx⟩
  cases i with
  | syn flags use => exact reply (applyFormat_next ..)
  | connect flags use => exact reply (applyFormat_next ..)
  | data flags use => exact reply (applyFormat_next ..)
  | disconnect flags use => exact reply (applyFormat_next ..)
  | ping flags use => exact reply (applyFormat_next ..)
  | vdet buf => exact reply (answer_next ..)
  | parse buf => exact reply (answer_next ..)
  | ser v => exact reply (answer_next ..)
  | keyb k => exact ⟨_, rfl⟩
  | keyn n => exact ⟨_, rfl⟩
  | csum b => exact reply (execCsum_next b s)
  | cver f => exact reply (execCver_next f s)
  | mksyn l r => exact ⟨_, rfl⟩
  | mkcon l r csig psig => exact reply (execMkcon_next l r csig psig s)
  | mkack r o => exact (execMkack_next r o s).elim reply fun ⟨_, ha⟩ => ⟨_, ha⟩
  | wfull => exact ⟨_, rfl⟩
  | wadd v timer => exact (execWadd_next v timer s).elim (fun h => reply h.1) fun ⟨ha, _⟩ => ⟨_, ha⟩
  | wack p => exact (execWack_next p s).elim reply fun ha => ⟨_, ha⟩
  | wwait q => exact ⟨_, rfl⟩
  | wretime q timer => exact (execWretime_next q timer s).elim reply fun ha => ⟨_, ha⟩
  | wclear => exact ⟨_, rfl⟩
  | send v => exact (execSend_next v s).elim (fun ⟨_, hx, _⟩ => ⟨_, hx⟩) fun ⟨ha, _⟩ => ⟨_, ha⟩
  | tick => exact (execTick_next s).elim (fun ha => ⟨_, ha⟩) fun ha => ⟨_, ha⟩
  | fire q => exact (execFire_next q s).elim (fun ⟨ha, _⟩ => ⟨_, ha⟩) fun ⟨_, _, _, ha⟩ => ⟨_, ha⟩

/-- Of the states an instruction can answer only an event's have no response. -/
theorem exec_response_none {i : Instr} {s t : State} (h : exec i s = .next t) : t.response = none ↔ isEvent i = true := by
  rcases exec_cases h with ⟨_, rfl, hi⟩ | ⟨_, _, rfl, -, -, ⟨_, rfl⟩ | ⟨_, rfl⟩⟩ | ⟨_, _, _, rfl, rfl⟩ | ⟨_, _, rfl, -, -, -, -, rfl⟩
    | ⟨_, rfl, rfl⟩ | ⟨_, _, rfl, rfl⟩ | ⟨rfl, rfl⟩ | ⟨_, _, rfl, -, -, -, -, rfl⟩ | ⟨rfl, hi⟩ | ⟨rfl, rfl⟩ | ⟨_, _, rfl, -, -, rfl⟩
  · exact iff_of_false (by simp) (by simp [hi])
  -- KEYB, KEYN, MKACK, WADD, WACK, WRETIME, WCLEAR and SEND respond and are no events.
  iterate 8 exact iff_of_false (by simp) (by simp [isEvent])
  · exact iff_of_true rfl hi
  · exact iff_of_true rfl rfl
  · exact iff_of_true rfl rfl

/-- Settles O48: every meaning answers, and only the events are silent. -/
theorem everyInstructionCompletes : Obligations.EveryInstructionCompletes := fun i s =>
  let ⟨t, h⟩ := exec_next i s
  ⟨t, h, exec_response_none h⟩

/-! Who writes which register. -/

/-- Settles O49: of all that an instruction can do, each way writes the registers named for it and no other. -/
theorem writersOfEachRegister : Obligations.WritersOfEachRegister := by
  intro i s t h
  rcases exec_cases h with ⟨_, rfl, -⟩ | ⟨_, _, rfl, -, -, hkey⟩ | ⟨r, o, _, rfl, rfl⟩ | ⟨_, _, -, -, -, -, -, rfl⟩ | ⟨_, -, rfl⟩
    | ⟨_, _, -, rfl⟩ | ⟨-, rfl⟩ | ⟨v, _, rfl, -, -, -, -, rfl⟩ | ⟨rfl, -⟩ | ⟨-, rfl⟩ | ⟨q, _, rfl, -, -, rfl⟩
  · exact ⟨rfl, rfl, by simp, by simp, by simp, by simp⟩
  · exact ⟨rfl, rfl, fun _ => hkey, by simp, by simp, by simp⟩
  · exact ⟨rfl, rfl, by simp, by simp, by simp, fun _ => ⟨r, o, rfl⟩⟩
  -- WADD, WACK, WRETIME and WCLEAR write the window only.
  iterate 4 exact ⟨rfl, rfl, by simp, by simp, by simp, by simp⟩
  · exact ⟨rfl, rfl, by simp [transmit], fun _ => ⟨v, rfl⟩, fun _ => ⟨.inl ⟨v, rfl⟩, _, rfl⟩, by simp [transmit]⟩
  -- An event that is not enabled writes no register, and TICK the window only.
  iterate 2 exact ⟨rfl, rfl, by simp, by simp, by simp, by simp⟩
  · exact ⟨rfl, rfl, by simp, by simp, fun _ => ⟨.inr ⟨q, rfl⟩, _, rfl⟩, by simp⟩

/-- No instruction clears KEY_VALID. -/
theorem exec_keeps_keyValid {i : Instr} {s t : State} (h : exec i s = .next t) (hk : s.keyValid = true) : t.keyValid = true := by
  rcases exec_cases h with ⟨_, rfl, -⟩ | ⟨_, _, rfl, -, -, -⟩ | ⟨_, _, _, -, rfl⟩ | ⟨_, _, -, -, -, -, -, rfl⟩ | ⟨_, -, rfl⟩
    | ⟨_, _, -, rfl⟩ | ⟨-, rfl⟩ | ⟨_, _, -, -, -, -, -, rfl⟩ | ⟨rfl, -⟩ | ⟨-, rfl⟩ | ⟨_, _, -, -, -, rfl⟩
  · exact hk
  · rfl
  all_goals exact hk

/-! Who writes the window. -/

/-- What rule R171 allows an instruction to do to the entry of one key. -/
def WindowWritten (i : Instr) (s t : State) (q : SeqId) : Prop :=
  (lookup s.window q = none → lookup t.window q ≠ none → (∃ v timer, i = .wadd v timer) ∨ ∃ v, i = .send v)
  ∧ (∀ e, lookup s.window q = some e → lookup t.window q = none → (∃ p, i = .wack p) ∨ i = .wclear)
  ∧ (∀ e g, lookup s.window q = some e → lookup t.window q = some g → g.pkt = e.pkt
    ∧ (g.timer ≠ e.timer → (∃ timer, i = .wretime q timer) ∨ i = .tick ∨ i = .fire q))

section WindowWritten

variable {i : Instr} {s t : State} {q : SeqId}

/-- A key that reads as before. -/
theorem windowWritten_of_same (h : lookup t.window q = lookup s.window q) : WindowWritten i s t q := by
  refine ⟨fun hs ht => absurd (h.trans hs) ht, fun e hs ht => ?_, fun e g hs ht => ?_⟩
  · cases hs.symm.trans (h.symm.trans ht)
  · obtain rfl : e = g := Option.some.inj (hs.symm.trans (h.symm.trans ht))
    exact ⟨rfl, fun hne => absurd rfl hne⟩

/-- An entry put under a free key. -/
theorem windowWritten_of_put {e : Entry} (hfree : lookup s.window e.pkt.seq = none) (hw : t.window = put s.window e)
    (hi : (∃ v timer, i = .wadd v timer) ∨ ∃ v, i = .send v) : WindowWritten i s t q := by
  by_cases hq : e.pkt.seq = q
  · subst hq
    exact ⟨fun _ _ => hi, fun e he => by simp [hfree] at he, fun e g he => by simp [hfree] at he⟩
  · exact windowWritten_of_same (by rw [hw, lookup_put_other _ _ hq])

/-- A key removed. -/
theorem windowWritten_of_remove {p : Packet} (hw : t.window = remove s.window p.seq) : WindowWritten (.wack p) s t q := by
  by_cases hq : p.seq = q
  · have hnone : lookup t.window q = none := by rw [hw, hq, lookup_remove_self]
    exact ⟨fun _ hne => absurd hnone hne, fun _ _ _ => .inl ⟨p, rfl⟩, fun e g _ hg => by simp [hnone] at hg⟩
  · exact windowWritten_of_same (by rw [hw, lookup_remove_other _ hq])

/-- Entries that keep their packet; of the entry at `q` the timer changes only for an instruction that may. -/
theorem windowWritten_of_map {f : Entry → Entry} (hw : t.window = s.window.map f) (hf : ∀ e, (f e).pkt = e.pkt)
    (hi : ∀ e, e.pkt.seq = q → (f e).timer ≠ e.timer → (∃ timer, i = .wretime q timer) ∨ i = .tick ∨ i = .fire q) :
    WindowWritten i s t q := by
  have hlook : lookup t.window q = (lookup s.window q).map f := by rw [hw, lookup_map (fun e => congrArg Packet.seq (hf e))]
  refine ⟨fun hs ht => ?_, fun e hs ht => ?_, fun e g hs ht => ?_⟩
  · simp [hlook, hs] at ht
  · simp [hlook, hs] at ht
  · obtain rfl : f e = g := by simpa [hlook, hs] using ht
    exact ⟨hf e, hi e (lookup_some hs).2⟩

/-- One key re-timed. -/
theorem windowWritten_of_retime {r : SeqId} {timer : Option Nat} (hw : t.window = retime s.window r timer)
    (hi : r = q → (∃ timer, i = .wretime q timer) ∨ i = .tick ∨ i = .fire q) : WindowWritten i s t q := by
  refine windowWritten_of_map hw (fun e => by split <;> rfl) fun e he hne => ?_
  by_cases hr : e.pkt.seq = r
  · exact hi (hr.symm.trans he)
  · simp [hr] at hne

end WindowWritten

/-- Settles O50: of all that an instruction can do, only putting, removing and re-timing show in the window. -/
theorem writersOfTheWindow : Obligations.WritersOfTheWindow := by
  intro i s t q h
  show WindowWritten i s t q
  rcases exec_cases h with ⟨_, rfl, -⟩ | ⟨_, _, rfl, -⟩ | ⟨_, _, _, -, rfl⟩ | ⟨v, timer, rfl, -, -, -, hfree, rfl⟩ | ⟨p, rfl, rfl⟩
    | ⟨r, timer, rfl, rfl⟩ | ⟨rfl, rfl⟩ | ⟨v, u, rfl, hu, -, -, hroom, rfl⟩ | ⟨rfl, -⟩ | ⟨rfl, rfl⟩ | ⟨r, e, rfl, -, -, rfl⟩
  · exact windowWritten_of_same rfl
  · exact windowWritten_of_same rfl
  · exact windowWritten_of_same rfl
  · exact windowWritten_of_put (e := { pkt := v, timer := timer }) hfree rfl (.inl ⟨v, timer, rfl⟩)
  · exact windowWritten_of_remove rfl
  · exact windowWritten_of_retime rfl (by rintro rfl; exact .inl ⟨timer, rfl⟩)
  · exact ⟨fun _ hne => absurd rfl hne, fun _ _ _ => .inr rfl, nofun⟩
  · have hflags : u.flags = v.flags := hu ▸ assigned_flags s v
    by_cases ht : isTracked s.cfg v.flags = true
    · exact windowWritten_of_put (hroom ht).2 (registered_of_tracked (hflags ▸ ht)) (.inr ⟨v, rfl⟩)
    · exact windowWritten_of_same (congrArg (lookup · q) (registered_of_not_tracked (hflags ▸ Bool.eq_false_iff.2 ht)))
  · exact windowWritten_of_same rfl
  · exact windowWritten_of_map rfl tickEntry_pkt fun _ _ _ => .inr (.inl rfl)
  · exact windowWritten_of_retime rfl (by rintro rfl; exact .inr (.inr rfl))

/-! What a step can do. -/

/-- A request that answers runs an instruction, or replies and changes nothing else. -/
theorem runRequest_cases {r : Request} {s t : State} (h : runRequest r s = .next t) :
    (∃ i, exec i s = .next t) ∨ ∃ x, t = respond s x := by
  have raised : ∀ {code}, raise (.illegalCommand code) s = .next t → ∃ x, t = respond s x := fun h => ⟨_, (Host.Outcome.next.inj h).symm⟩
  unfold runRequest at h
  split at h
  · split at h
    · exact .inl ⟨_, h⟩
    · cases h
  · exact .inr (raised h)
  · split at h
    · rename_i tf use _
      unfold runUnassigned at h
      split at h
      · obtain ⟨x, hx⟩ := applyFormat_next (tfType tf) .bare (tfFlags tf) use s
        exact .inr ⟨x, Host.Outcome.next.inj (h.symm.trans hx)⟩
      · cases h
    · exact .inr (raised h)

/-- A step has valid straps, and waits, resets, runs an instruction, or replies and changes nothing else but the schedule. -/
theorem step_cases {s t : State} (h : step s = .next t) :
    cfgValid s.cfg = true ∧ (t = s ∨ (∃ rest, s.sched = .reset :: rest ∧ t = resetInput (setSched s rest))
      ∨ (∃ i rest, exec i (setSched s rest) = .next t) ∨ ∃ rest x, t = respond (setSched s rest) x) := by
  unfold step at h
  split at h
  · rename_i hc
    refine ⟨hc, ?_⟩
    unfold takeNext at h
    split at h
    · exact .inl (Host.Outcome.next.inj h).symm
    · rename_i x rest hs
      cases x with
      | reset => exact .inr (.inl ⟨rest, hs, (Host.Outcome.next.inj h).symm⟩)
      | request r =>
        rcases runRequest_cases h with ⟨i, hi⟩ | ⟨x, hx⟩
        · exact .inr (.inr (.inl ⟨i, rest, hi⟩))
        · exact .inr (.inr (.inr ⟨rest, x, hx⟩))
  · cases h

/-- Settles O55: no instruction clears KEY_VALID, so what is left of a step that does is the RESET input. -/
theorem onlyResetClearsKeyValid : Obligations.OnlyResetClearsKeyValid := by
  intro s t h hk hclear
  obtain ⟨-, rfl | ⟨rest, hs, -⟩ | ⟨i, rest, hi⟩ | ⟨rest, x, rfl⟩⟩ := step_cases h
  · simp [hk] at hclear
  · exact ⟨rest, hs⟩
  · simp [exec_keeps_keyValid hi hk] at hclear
  · simp [hk] at hclear

/-! The invariant. -/

section Invariant

variable {s t : State} (hinv : StateInv s) (hcfg : t.cfg = s.cfg)

include hinv hcfg

/-- A state with the same window in which KEY_VALID was not cleared. -/
theorem stateInv_of_window_eq (hk : s.keyValid = true → t.keyValid = true) (hw : t.window = s.window) : StateInv t where
  straps := hcfg ▸ hinv.straps
  canonical := hw ▸ hinv.canonical
  bounded := by rw [hw, hcfg]; exact hinv.bounded
  serialisable := by rw [hw, hcfg]; exact hinv.serialisable
  keyed hne := hk (hinv.keyed (hw ▸ hne))

/-- A window of packets of the window before, no larger. -/
theorem stateInv_of_window_sub (hk : t.keyValid = s.keyValid) (hwf : Window.wf t.window) (hlen : t.window.length ≤ s.window.length)
    (hsub : ∀ x ∈ t.window, ∃ y ∈ s.window, y.pkt = x.pkt) : StateInv t where
  straps := hcfg ▸ hinv.straps
  canonical := hwf
  bounded := hcfg ▸ hlen.trans hinv.bounded
  serialisable x hx := by
    obtain ⟨y, hy, he⟩ := hsub x hx
    rw [hcfg, ← he]
    exact hinv.serialisable y hy
  keyed hne := by
    obtain ⟨x, hx⟩ := List.exists_mem_of_ne_nil _ hne
    obtain ⟨y, hy, -⟩ := hsub x hx
    exact hk.trans (hinv.keyed (List.ne_nil_of_mem hy))

/-- A serialisable packet put under a free key of a window with room, with a key loaded. -/
theorem stateInv_of_window_put {e : Entry} (hk : t.keyValid = true) (hw : t.window = put s.window e) (hroom : s.window.length ≠ s.cfg.cap)
    (hfree : lookup s.window e.pkt.seq = none) (hser : isSerialisable s.cfg e.pkt = true) : StateInv t where
  straps := hcfg ▸ hinv.straps
  canonical := hw ▸ wf_put hinv.canonical e
  bounded := by
    have := hinv.bounded
    rw [hw, hcfg, length_put hfree]
    omega
  serialisable x hx := by
    rw [hcfg]
    rcases mem_put (hw ▸ hx) with rfl | hx
    · exact hser
    · exact hinv.serialisable x hx
  keyed _ := hk

end Invariant

/-- Every instruction keeps the invariant. -/
theorem exec_keeps_stateInv {i : Instr} {s t : State} (h : exec i s = .next t) (hinv : StateInv s) : StateInv t := by
  rcases exec_cases h with ⟨_, rfl, -⟩ | ⟨_, _, rfl, -⟩ | ⟨_, _, _, -, rfl⟩ | ⟨v, timer, -, hroom, hk, hv, hfree, rfl⟩ | ⟨p, -, rfl⟩
    | ⟨r, timer, -, rfl⟩ | ⟨-, rfl⟩ | ⟨v, u, -, hu, hk, hv, hroom, rfl⟩ | ⟨rfl, -⟩ | ⟨-, rfl⟩ | ⟨r, e, -, -, -, rfl⟩
  · exact stateInv_of_window_eq hinv rfl id rfl
  · exact stateInv_of_window_eq hinv rfl (fun _ => rfl) rfl
  · exact stateInv_of_window_eq hinv rfl id rfl
  · exact stateInv_of_window_put (e := { pkt := v, timer := timer }) hinv rfl hk rfl hroom hfree hv
  · exact stateInv_of_window_sub hinv rfl rfl (wf_remove hinv.canonical _) (length_remove_le ..)
      fun x hx => ⟨x, (mem_remove.1 hx).1, rfl⟩
  · exact stateInv_of_window_sub hinv rfl rfl (wf_retime hinv.canonical ..) (length_retime ..).le fun _ => mem_retime
  · exact stateInv_of_window_sub hinv rfl rfl List.Pairwise.nil (Nat.zero_le _) nofun
  · have hflags : u.flags = v.flags := hu ▸ assigned_flags s v
    by_cases ht : isTracked s.cfg v.flags = true
    · exact stateInv_of_window_put hinv rfl hk (registered_of_tracked (hflags ▸ ht)) (hroom ht).1 (hroom ht).2 hv
    · exact stateInv_of_window_eq hinv rfl id (registered_of_not_tracked (hflags ▸ Bool.eq_false_iff.2 ht))
  · exact stateInv_of_window_eq hinv rfl id rfl
  · refine stateInv_of_window_sub hinv rfl rfl (wf_tick hinv.canonical) (List.length_map _).le fun x hx => ?_
    obtain ⟨y, hy, rfl⟩ := List.mem_map.1 hx
    exact ⟨y, hy, (tickEntry_pkt y).symm⟩
  · exact stateInv_of_window_sub hinv rfl rfl (wf_retime hinv.canonical ..) (length_retime ..).le fun _ => mem_retime

/-- An empty window under valid straps meets the invariant. -/
theorem stateInv_of_empty {s : State} (hc : cfgValid s.cfg = true) (hw : s.window = []) : StateInv s where
  straps := hc
  canonical := hw ▸ List.Pairwise.nil
  bounded := hw ▸ Nat.zero_le _
  serialisable := by simp [hw]
  keyed hne := absurd hw hne

/-- Settles O51: taking the input off the schedule keeps the invariant, and so does what the input then does. -/
theorem stepKeepsInvariant : Obligations.StepKeepsInvariant := by
  intro s t hinv h
  have taken : ∀ rest, StateInv (setSched s rest) := fun _ => stateInv_of_window_eq hinv rfl id rfl
  obtain ⟨hc, rfl | ⟨rest, -, rfl⟩ | ⟨i, rest, hi⟩ | ⟨rest, x, rfl⟩⟩ := step_cases h
  · exact hinv
  · exact stateInv_of_empty hc rfl
  · exact exec_keeps_stateInv hi (taken rest)
  · exact stateInv_of_window_eq (taken rest) rfl id rfl

/-! Reset. -/

/-- The straps of the reset state are valid whatever the OPEN parameters are (rule R8). -/
theorem cfgValid_strapped : cfgValid Config.strapped = true := rfl

/-- Settles O52: the straps of the reset state are valid, and its window is empty. -/
theorem invariantHoldsAtReset : Obligations.InvariantHoldsAtReset := stateInv_of_empty cfgValid_strapped rfl

/-- Settles O53: each value is a field of the reset state or of its straps; without KEY_VALID, CSUM is refused under any KEY. -/
theorem resetState : Obligations.ResetState :=
  ⟨rfl, rfl, rfl, rfl, rfl, rfl, rfl, rfl, rfl, rfl, rfl, rfl, rfl, rfl, Nat.le_add_left .., rfl, fun _ b => exec_csum_noKey b rfl⟩

theorem step_reset {s : State} {rest : List Input} (hc : cfgValid s.cfg = true) (hs : s.sched = .reset :: rest) :
    step s = .next (resetInput (setSched s rest)) := by
  rw [step, if_pos hc, takeNext, hs]
  rfl

/-- Settles O54: SEQ takes its reset value, which valid straps have at 0. -/
theorem resetInputClearsState : Obligations.ResetInputClearsState := by
  intro s rest hc hs
  obtain ⟨-, -, hseq⟩ := cfgValid_fixed hc
  rw [step_reset hc hs, ← hseq]
  rfl

/-! The strict step. -/

theorem statusKind_eq_source {code : Byte} : statusKind code = some .source ↔ code ∈ ([0x00, 0x01, 0x02, 0x03] : List Byte) := by
  unfold statusKind
  split_ifs with hsource hrefusal
  · exact iff_of_true rfl hsource
  · exact iff_of_false nofun hsource
  · exact iff_of_false nofun hsource

theorem statusKind_eq_refusal {code : Byte} :
    statusKind code = some .refusal ↔ code ∈ ([0x10, 0x11, 0x12, 0x13, 0x14, 0x1F] : List Byte) := by
  have hdisjoint : ∀ c ∈ ([0x00, 0x01, 0x02, 0x03] : List Byte), c ∉ ([0x10, 0x11, 0x12, 0x13, 0x14, 0x1F] : List Byte) := by decide
  unfold statusKind
  split_ifs with hsource hrefusal
  · exact iff_of_false nofun (hdisjoint code hsource)
  · exact iff_of_true rfl hrefusal
  · exact iff_of_false nofun hrefusal

theorem refusedLast_eq_false {s : State} :
    refusedLast s = false ↔ ∀ r, s.response = some r → r.status ∉ ([0x10, 0x11, 0x12, 0x13, 0x14, 0x1F] : List Byte) := by
  simp only [refusedLast, Option.any_eq_false, ← statusKind_eq_refusal, beq_eq_false_iff_ne, ne_eq]

/-- Settles O60: the strict step asks for the last response first, and then is the machine's step where that answers a state. -/
theorem strictStepStopsAtRefusals : Obligations.StrictStepStopsAtRefusals := by
  intro s t
  rw [← refusedLast_eq_false, strictStep]
  cases refusedLast s with
  | true => simp
  | false => cases step s <;> simp

end Sys2Proof.Machine
end

section
/-! SUPPORT. Which statuses each row can end with (spec/60_exceptions.md rules R200, R213): the exceptions of each computation, then the answer
of each meaning. -/

namespace Sys2Proof.Machine

open Sys2Proof.Safety

/-! The exceptions of each computation. -/

theorem detectVersion_status {buf : Bytes} {x : Exception} (h : detectVersion buf = .error x) : statusCode x = 0x01 := by
  unfold detectVersion at h
  split_ifs at h <;> cases h <;> rfl

theorem checkLead_status {buf : Bytes} {x : Exception} (h : checkLead buf = .error x) : statusCode x ∈ ([0x01, 0x10] : List Byte) := by
  unfold checkLead at h
  split at h
  · rename_i hd
    cases h
    simp [detectVersion_status hd]
  · split_ifs at h <;> cases h <;> simp [statusCode]

theorem readBody_status {body : BodyFormat} {buf : Bytes} {v : Packet} {x : Exception} (h : readBody body buf v = .error x) :
    statusCode x = 0x01 := by
  cases body with
  | sig =>
    simp only [readBody] at h
    split_ifs at h
    cases h
    rfl
  | frag =>
    simp only [readBody] at h
    split_ifs at h
    cases h
    rfl
  | bare => cases h

theorem readTail_status {tail : TailOption} {buf : Bytes} {v : Packet} {off : Nat} {x : Exception} (h : readTail tail buf v off = .error x) :
    statusCode x = 0x01 := by
  cases tail with
  | size =>
    simp only [readTail] at h
    split_ifs at h <;> cases h <;> rfl
  | rest => cases h
  | nothing => cases h

theorem readFields_status {body : BodyFormat} {tail : TailOption} {buf : Bytes} {x : Exception} (h : readFields body tail buf = .error x) :
    statusCode x = 0x01 := by
  unfold readFields at h
  split at h
  · rename_i hb
    cases h
    exact readBody_status hb
  · split at h
    · rename_i ht
      cases h
      exact readTail_status ht
    · split_ifs at h
      cases h
      rfl

/-- PARSE ends with `ParseError` or `UnsupportedVersion` where it does not complete, whatever the body format. -/
theorem parseAs_status {c : Cfg} {body : BodyFormat} {buf : Bytes} {x : Exception} (h : parseAs c body buf = .error x) :
    statusCode x ∈ ([0x01, 0x10] : List Byte) := by
  unfold parseAs at h
  split at h
  · rename_i hl
    cases h
    exact checkLead_status hl
  · simp [readFields_status h]

/-- The checks of rule R109 end with `UnsupportedVersion`, `NoKey` or `ValidationError`. -/
theorem admissionFault_status {s : State} {v : Packet} {x : Exception} (h : admissionFault s v = some x) :
    statusCode x ∈ ([0x02, 0x10, 0x11] : List Byte) := by
  unfold admissionFault at h
  split_ifs at h
  · cases h
    simp [statusCode]
  · cases h
    simp [statusCode]
  · obtain ⟨cause, -, rfl⟩ := Option.map_eq_some_iff.1 h
    simp [statusCode]

theorem serialise_status {s : State} {v : Packet} {x : Exception} (h : serialise s v = .error x) :
    statusCode x ∈ ([0x02, 0x10, 0x11] : List Byte) := by
  unfold serialise at h
  split at h
  · rename_i ha
    cases h
    exact admissionFault_status ha
  · cases h

/-- A computation of which only the result is mapped fails as before. -/
theorem error_of_map {α β : Type} {f : α → β} {r : Except Exception α} {x : Exception} (h : r.map f = .error x) : r = .error x := by
  cases r with
  | error y => exact congrArg Except.error (Except.error.inj h)
  | ok a => cases h

theorem signatureOr_status {supplied : Option Bytes} {cause : ValidationCause} {fresh : Bytes} {x : Exception}
    (h : signatureOr supplied cause fresh = .error x) : statusCode x = 0x02 := by
  unfold signatureOr at h
  split at h
  · split_ifs at h
    cases h
    rfl
  · cases h

theorem ackByType_status {c : Cfg} {r : Packet} {o : AckOptions} {fresh : Bytes} {x : Exception} (h : ackByType c r o fresh = .error x) :
    statusCode x ∈ ([0x02, 0x12] : List Byte) := by
  unfold ackByType at h
  split_ifs at h
  · simp [signatureOr_status (error_of_map h)]
  · simp [signatureOr_status (error_of_map h)]
  · cases h
    simp [statusCode]

/-- MKACK ends with `UnsupportedVersion`, `ProtocolError`, `ValidationError` or `PingAckUnimplemented` where it yields nothing. -/
theorem buildAck_status {c : Cfg} {r : Packet} {o : AckOptions} {fresh : Bytes} {x : Exception} (h : buildAck c r o fresh = .error x) :
    statusCode x ∈ ([0x02, 0x03, 0x10, 0x12] : List Byte) := by
  have hsub : ([0x02, 0x12] : List Byte) ⊆ [0x02, 0x03, 0x10, 0x12] := by decide
  unfold buildAck at h
  split_ifs at h
  case neg => exact hsub (ackByType_status (error_of_map h))
  all_goals
    cases h
    simp [statusCode]

/-! The answers of each meaning. -/

/-- A response that is answered has one of the statuses `l`. -/
def AnswersIn (l : List Byte) (a : Answer) : Prop := ∀ t r, a = .next t → t.response = some r → r.status ∈ l

section AnswersIn

variable {l : List Byte}

theorem answersIn_respond {s : State} {x : Response} (h : x.status ∈ l) : AnswersIn l (.next (respond s x)) := by
  intro t r ht hr
  cases ht
  obtain rfl : x = r := Option.some.inj hr
  exact h

theorem answersIn_silent (s : State) : AnswersIn l (.next (silent s)) := by
  intro t r ht hr
  cases ht
  cases hr

theorem answersIn_raise {x : Exception} (s : State) (h : statusCode x ∈ l) : AnswersIn l (raise x s) := answersIn_respond h

theorem answersIn_done (r : Result) (s : State) : AnswersIn (0x00 :: l) (done r s) := answersIn_respond List.mem_cons_self

theorem answersIn_answer {r : Except Exception Result} (s : State) (h : ∀ x, r = .error x → statusCode x ∈ l) :
    AnswersIn (0x00 :: l) (answer r s) := by
  cases r with
  | error x => exact answersIn_raise s (List.mem_cons_of_mem _ (h x rfl))
  | ok res => exact answersIn_done res s

end AnswersIn

/-- Reading a frame by any layout ends as PARSE does. -/
theorem answersIn_parseAs (c : Cfg) (body : BodyFormat) (buf : Bytes) (s : State) :
    AnswersIn [0x00, 0x01, 0x10] (answer ((parseAs c body buf).map .packet) s) :=
  answersIn_answer s fun _ h => parseAs_status (error_of_map h)

theorem answersIn_serialise (v : Packet) (s : State) : AnswersIn [0x00, 0x02, 0x10, 0x11] (answer (serialise s v) s) :=
  answersIn_answer s fun _ h => serialise_status h

/-- A packet-type row ends as PARSE or SER does (log entry 7). -/
theorem answersIn_applyFormat (type : TypeCode) (body : BodyFormat) (flags : FlagSet) (use : FormatUse) (s : State) :
    AnswersIn (statusesOf.formatStatuses use) (applyFormat type body flags use s) := by
  cases use with
  | parse src dst rest => exact answersIn_parseAs _ _ _ s
  | serialise v => exact answersIn_serialise _ s

theorem answersIn_execVdet (buf : Bytes) (s : State) : AnswersIn [0x00, 0x01] (execVdet buf s) :=
  answersIn_answer s fun _ h => by simp [detectVersion_status (error_of_map h)]

theorem answersIn_execCsum (b : Bytes) (s : State) : AnswersIn [0x00, 0x11] (execCsum b s) := by
  unfold execCsum
  split
  · exact answersIn_done _ _
  · exact answersIn_raise s (by simp [statusCode])

theorem answersIn_execCver (f : Bytes) (s : State) : AnswersIn [0x00, 0x01, 0x11] (execCver f s) := by
  unfold execCver
  split_ifs
  · exact answersIn_raise s (by simp [statusCode])
  · exact answersIn_raise s (by simp [statusCode])
  · exact answersIn_done _ _

theorem answersIn_execMkcon (l r : Byte) (csig psig : Bytes) (s : State) : AnswersIn [0x00, 0x02] (execMkcon l r csig psig s) := by
  unfold execMkcon
  split_ifs
  · exact answersIn_raise s (by simp [statusCode])
  · exact answersIn_raise s (by simp [statusCode])
  · exact answersIn_done _ _

theorem answersIn_execMkack (r : Packet) (o : AckOptions) (s : State) : AnswersIn [0x00, 0x02, 0x03, 0x10, 0x12] (execMkack r o s) := by
  unfold execMkack
  split
  · rename_i hx
    exact answersIn_raise s (List.mem_cons_of_mem _ (buildAck_status hx))
  · exact answersIn_done _ _
  · exact answersIn_done _ _
  · exact answersIn_done _ _

/-- The statuses of the checks of rule R109 are among those of WADD and SEND. -/
theorem admissionFault_status_window {s : State} {v : Packet} {x : Exception} (h : admissionFault s v = some x) :
    statusCode x ∈ ([0x00, 0x02, 0x10, 0x11, 0x13] : List Byte) := by
  have hsub : ([0x02, 0x10, 0x11] : List Byte) ⊆ [0x00, 0x02, 0x10, 0x11, 0x13] := by decide
  exact hsub (admissionFault_status h)

theorem answersIn_execWadd (v : Packet) (timer : Option Nat) (s : State) :
    AnswersIn [0x00, 0x02, 0x10, 0x11, 0x13] (execWadd v timer s) := by
  unfold execWadd
  split
  · exact answersIn_done _ _
  · split
    · exact answersIn_raise s (admissionFault_status_window ‹_›)
    · split
      · exact answersIn_raise s (by simp [statusCode])
      · exact answersIn_done _ _

theorem answersIn_execSend (v : Packet) (s : State) : AnswersIn [0x00, 0x02, 0x10, 0x11, 0x13] (execSend v s) := by
  unfold execSend
  split
  · exact answersIn_done _ _
  · split
    · exact answersIn_raise s (admissionFault_status_window ‹_›)
    · split
      · exact answersIn_raise s (by simp [statusCode])
      · exact answersIn_done _ _

theorem answersIn_execWack (p : Packet) (s : State) : AnswersIn [0x00] (execWack p s) := by
  unfold execWack
  split <;> exact answersIn_done _ _

theorem answersIn_execWretime (q : SeqId) (timer : Option Nat) (s : State) : AnswersIn [0x00, 0x14] (execWretime q timer s) := by
  unfold execWretime
  split
  · exact answersIn_done _ _
  · exact answersIn_raise s (by simp [statusCode])

theorem answersIn_execTick (s : State) : AnswersIn [] (execTick s) := by
  rcases execTick_next s with h | h <;> exact h ▸ answersIn_silent _

theorem answersIn_execFire (q : SeqId) (s : State) : AnswersIn [] (execFire q s) := by
  rcases execFire_next q s with ⟨h, -⟩ | ⟨_, -, -, h⟩ <;> exact h ▸ answersIn_silent _

/-- Each instruction answers with one of its statuses. -/
theorem answersIn_exec (i : Instr) (s : State) : AnswersIn (statusesOf i) (exec i s) := by
  cases i with
  | syn flags use => exact answersIn_applyFormat _ _ flags use s
  | connect flags use => exact answersIn_applyFormat _ _ flags use s
  | data flags use => exact answersIn_applyFormat _ _ flags use s
  | disconnect flags use => exact answersIn_applyFormat _ _ flags use s
  | ping flags use => exact answersIn_applyFormat _ _ flags use s
  | vdet buf => exact answersIn_execVdet buf s
  | parse buf => exact answersIn_parseAs _ _ buf s
  | ser v => exact answersIn_serialise v s
  | keyb k => exact answersIn_done _ _
  | keyn n => exact answersIn_done _ _
  | csum b => exact answersIn_execCsum b s
  | cver f => exact answersIn_execCver f s
  | mksyn l r => exact answersIn_done _ _
  | mkcon l r csig psig => exact answersIn_execMkcon l r csig psig s
  | mkack r o => exact answersIn_execMkack r o s
  | wfull => exact answersIn_done _ _
  | wadd v timer => exact answersIn_execWadd v timer s
  | wack p => exact answersIn_execWack p s
  | wwait q => exact answersIn_done _ _
  | wretime q timer => exact answersIn_execWretime q timer s
  | wclear => exact answersIn_done _ _
  | send v => exact answersIn_execSend v s
  | tick => exact answersIn_execTick s
  | fire q => exact answersIn_execFire q s

/-- Settles O59: each instruction answers with one of its statuses, and the kinds are the column of rule R200. -/
theorem statusesSorted : Obligations.StatusesSorted :=
  ⟨fun i s t r => answersIn_exec i s t r, fun _ => ⟨statusKind_eq_source, statusKind_eq_refusal⟩⟩

end Sys2Proof.Machine
end

section
/-! SUPPORT. Parts of the state that no meaning reads (spec/10_state.md rules R29, R36, R43; spec/00_scope.md rule R7): one lemma says that a
change of such a part goes through every meaning, and the last response, the TX log, KEY and TICK_PERIOD are its four cases. -/

namespace Sys2Proof.Machine

open Sys2Proof.Safety

/-- The next state of an answer, changed by `g`. -/
def mapNext (g : State → State) : Answer → Answer
  | .next t => .next (g t)
  | .fault r => .fault r
  | .refused r => .refused r

/-- The change `f` of a state leaves everything that a meaning reads, KEY aside, and commutes with every update a meaning makes; once the
response port is written, what is left of `f` is the change `g`. -/
structure Unread (f g : State → State) : Prop where
  cfg : ∀ s, ∃ p, (f s).cfg = { s.cfg with tickPeriod := p }
  keyValid : ∀ s, (f s).keyValid = s.keyValid
  seq : ∀ s, (f s).seq = s.seq
  window : ∀ s, (f s).window = s.window
  rng : ∀ s, (f s).rng = s.rng
  setSeq_comm : ∀ s q, setSeq (f s) q = f (setSeq s q)
  setWindow_comm : ∀ s w, setWindow (f s) w = f (setWindow s w)
  emit_comm : ∀ s b, emit (f s) b = f (emit s b)
  afterDraw_comm : ∀ s n, afterDraw (f s) n = f (afterDraw s n)
  respond_comm : ∀ s x, respond (f s) x = g (respond s x)
  silent_comm : ∀ s, silent (f s) = g (silent s)

/-- The change `f` leaves KEY. -/
structure KeyUnchanged (f : State → State) : Prop where
  key : ∀ s, (f s).key = s.key
  loadKey_comm : ∀ s k, loadKey (f s) k = f (loadKey s k)

/-- A packet-type row that serialises. -/
def serialises : FormatUse → Bool
  | .parse _ _ _ => false
  | .serialise _ => true

/-- The instructions that read or write KEY (rule R36), with the rows that serialise (log entry 7). -/
def usesKey : Instr → Bool
  | .syn _ use => serialises use
  | .connect _ use => serialises use
  | .data _ use => serialises use
  | .disconnect _ use => serialises use
  | .ping _ use => serialises use
  | .ser _ => true
  | .keyb _ => true
  | .keyn _ => true
  | .csum _ => true
  | .cver _ => true
  | .send _ => true
  | .fire _ => true
  | _ => false

namespace Unread

variable {f g : State → State} (hu : Unread f g) (s : State)

include hu

/-! What the change does not show in. -/

/-- A reading of the straps that leaves TICK_PERIOD alone. -/
theorem of_cfg {α : Type} {r : Cfg → α} (hr : ∀ c p, r { c with tickPeriod := p } = r c) : r (f s).cfg = r s.cfg := by
  obtain ⟨p, hp⟩ := hu.cfg s
  rw [hp, hr]

theorem isFull_eq : isFull (f s) = isFull s := by
  rw [isFull, isFull, count, count, hu.window, hu.of_cfg s (r := Cfg.cap) fun _ _ => rfl]

theorem drawn_eq (n : Nat) : drawn (f s) n = drawn s n := by
  rw [drawn, drawn, hu.rng]

theorem admissionFault_eq (v : Packet) : admissionFault (f s) v = admissionFault s v := by
  rw [admissionFault, admissionFault, hu.keyValid, hu.of_cfg s (r := fun c => fieldFault c v) fun _ _ => rfl]

theorem buildAck_eq (r : Packet) (o : AckOptions) (n : Nat) :
    buildAck (f s).cfg r o (drawn (f s) n) = buildAck s.cfg r o (drawn s n) := by
  rw [hu.drawn_eq, hu.of_cfg s (r := fun c => buildAck c r o _) fun _ _ => rfl]

theorem tickEnabled_eq : tickEnabled (f s) = tickEnabled s := by
  rw [tickEnabled, tickEnabled, hu.window]

theorem assigned_eq (v : Packet) : assigned (f s) v = assigned s v := by
  rw [assigned, assigned, hu.seq, hu.of_cfg s (r := fun c => isFresh c v.flags) fun _ _ => rfl]

theorem nextSeq_eq (v : Packet) : nextSeq (f s) v = nextSeq s v := by
  rw [nextSeq, nextSeq, hu.seq, hu.of_cfg s (r := fun c => isFresh c v.flags) fun _ _ => rfl]

theorem isDropped_eq (v : Packet) : isDropped (f s) v = isDropped s v := by
  rw [isDropped, isDropped, hu.isFull_eq,
    hu.of_cfg s (r := fun c => isTracked c v.flags || c.fullDropsUntracked) fun _ _ => rfl]

theorem isTracked_eq (b : FlagSet) : isTracked (f s).cfg b = isTracked s.cfg b :=
  hu.of_cfg s (r := fun c => isTracked c b) fun _ _ => rfl

theorem rtoTicks_eq : (f s).cfg.rtoTicks = s.cfg.rtoTicks := hu.of_cfg s (r := Cfg.rtoTicks) fun _ _ => rfl

theorem registered_eq (u : Packet) : registered (f s) u = registered s u := by
  rw [registered, registered, hu.isTracked_eq, hu.rtoTicks_eq, hu.window]

/-! How the change goes through an answer. -/

theorem raise_comm (x : Exception) : raise x (f s) = mapNext g (raise x s) := congrArg Host.Outcome.next (hu.respond_comm s _)

theorem done_comm (r : Result) : done r (f s) = mapNext g (done r s) := congrArg Host.Outcome.next (hu.respond_comm s _)

theorem answer_comm (r : Except Exception Result) : answer r (f s) = mapNext g (answer r s) := by
  cases r with
  | error x => exact hu.raise_comm s x
  | ok res => exact hu.done_comm s res

/-- A command that answers by the straps. -/
theorem answer_cfg_comm {r : Cfg → Except Exception Result} (hr : ∀ c p, r { c with tickPeriod := p } = r c) :
    answer (r (f s).cfg) (f s) = mapNext g (answer (r s.cfg) s) := by
  rw [hu.of_cfg s hr, hu.answer_comm]

theorem next_silent_comm : (.next (silent (f s)) : Answer) = mapNext g (.next (silent s)) := congrArg Host.Outcome.next (hu.silent_comm s)

theorem done_setWindow_comm (r : Result) (w : Window) :
    done r (setWindow (f s) w) = mapNext g (done r (setWindow s w)) := by
  rw [hu.setWindow_comm, hu.done_comm]

/-! The meanings that do not use KEY. -/

theorem execMkcon_comm (l r : Byte) (csig psig : Bytes) : execMkcon l r csig psig (f s) = mapNext g (execMkcon l r csig psig s) := by
  unfold execMkcon
  split_ifs
  · exact hu.raise_comm s _
  · exact hu.raise_comm s _
  · exact hu.answer_cfg_comm s (r := fun c => .ok (.packet (connectPacket c l r csig psig))) fun _ _ => rfl

theorem execMkack_comm (r : Packet) (o : AckOptions) : execMkack r o (f s) = mapNext g (execMkack r o s) := by
  unfold execMkack
  rw [hu.buildAck_eq]
  rcases buildAck s.cfg r o (drawn s Config.sigLen) with x | _ | ⟨a, _ | _⟩
  · exact hu.raise_comm s x
  · exact hu.done_comm s _
  · exact hu.done_comm s _
  · simp only [hu.afterDraw_comm, hu.done_comm]

theorem execWadd_comm (v : Packet) (timer : Option Nat) : execWadd v timer (f s) = mapNext g (execWadd v timer s) := by
  unfold execWadd
  rw [hu.isFull_eq, hu.admissionFault_eq, hu.window]
  split
  · exact hu.done_comm s _
  · rcases admissionFault s v with _ | x
    · simp only
      split
      · exact hu.raise_comm s _
      · exact hu.done_setWindow_comm s _ _
    · exact hu.raise_comm s x

theorem execWack_comm (p : Packet) : execWack p (f s) = mapNext g (execWack p s) := by
  unfold execWack
  rw [hu.window]
  split
  · exact hu.done_setWindow_comm s _ _
  · exact hu.done_comm s _

theorem execWretime_comm (q : SeqId) (timer : Option Nat) : execWretime q timer (f s) = mapNext g (execWretime q timer s) := by
  unfold execWretime
  rw [hu.window]
  split
  · exact hu.done_setWindow_comm s _ _
  · exact hu.raise_comm s _

theorem execTick_comm : execTick (f s) = mapNext g (execTick s) := by
  unfold execTick
  rw [hu.tickEnabled_eq, hu.window, hu.setWindow_comm]
  split
  · exact hu.next_silent_comm _
  · exact hu.next_silent_comm s

/-- A row that parses. -/
theorem applyFormat_parse_comm {type : Cfg → TypeCode} (ht : ∀ c p, type { c with tickPeriod := p } = type c) (body : BodyFormat)
    (flags : FlagSet) {use : FormatUse} (hw : serialises use = false) :
    applyFormat (type (f s).cfg) body flags use (f s) = mapNext g (applyFormat (type s.cfg) body flags use s) := by
  cases use with
  | parse src dst rest =>
    rw [hu.of_cfg s ht]
    exact hu.answer_cfg_comm s (r := fun c => (parseAs c body (rowFrame (type s.cfg) flags src dst rest)).map .packet) fun _ _ => rfl
  | serialise v => cases hw

/-- The change goes through every instruction that does not use KEY. -/
theorem exec_comm {i : Instr} (hi : usesKey i = false) : exec i (f s) = mapNext g (exec i s) := by
  cases i
  case syn flags use => exact hu.applyFormat_parse_comm s (type := Cfg.tSyn) (fun _ _ => rfl) _ flags hi
  case connect flags use => exact hu.applyFormat_parse_comm s (type := Cfg.tConnect) (fun _ _ => rfl) _ flags hi
  case data flags use => exact hu.applyFormat_parse_comm s (type := Cfg.tData) (fun _ _ => rfl) _ flags hi
  case disconnect flags use => exact hu.applyFormat_parse_comm s (type := Cfg.tDisconnect) (fun _ _ => rfl) _ flags hi
  case ping flags use => exact hu.applyFormat_parse_comm s (type := Cfg.tPing) (fun _ _ => rfl) _ flags hi
  case vdet buf => exact hu.answer_comm s _
  case parse buf => exact hu.answer_cfg_comm s (r := fun c => (parseFrame c buf).map .packet) fun _ _ => rfl
  case mksyn l r => exact hu.answer_cfg_comm s (r := fun c => .ok (.packet (synPacket c l r))) fun _ _ => rfl
  case mkcon l r csig psig => exact hu.execMkcon_comm s l r csig psig
  case mkack r o => exact hu.execMkack_comm s r o
  case wfull =>
    show done (.verdict (isFull (f s))) (f s) = _
    rw [hu.isFull_eq]
    exact hu.done_comm s _
  case wadd v timer => exact hu.execWadd_comm s v timer
  case wack p => exact hu.execWack_comm s p
  case wwait q =>
    show done (.verdict (lookup (f s).window q).isSome) (f s) = _
    rw [hu.window]
    exact hu.done_comm s _
  case wretime q timer => exact hu.execWretime_comm s q timer
  case wclear =>
    show done (.count (f s).window.length) (setWindow (f s) []) = _
    rw [hu.window]
    exact hu.done_setWindow_comm s _ _
  case tick => exact hu.execTick_comm s
  all_goals cases hi

/-! The meanings that use KEY. -/

variable (hk : KeyUnchanged f)

include hk

theorem frameOf_eq (v : Packet) : frameOf (f s).cfg (f s).key v = frameOf s.cfg s.key v := by
  rw [hk.key]
  exact hu.of_cfg s (r := fun c => frameOf c s.key v) fun _ _ => rfl

theorem answer_serialise_comm (v : Packet) : answer (serialise (f s) v) (f s) = mapNext g (answer (serialise s v) s) := by
  have hser : serialise (f s) v = serialise s v := by rw [serialise, serialise, hu.admissionFault_eq, hu.frameOf_eq s hk]
  rw [hser, hu.answer_comm]

/-- A row in either use. -/
theorem applyFormat_comm {type : Cfg → TypeCode} (ht : ∀ c p, type { c with tickPeriod := p } = type c) (body : BodyFormat)
    (flags : FlagSet) (use : FormatUse) :
    applyFormat (type (f s).cfg) body flags use (f s) = mapNext g (applyFormat (type s.cfg) body flags use s) := by
  cases use with
  | parse src dst rest => exact hu.applyFormat_parse_comm s ht body flags rfl
  | serialise v =>
    rw [hu.of_cfg s ht]
    exact hu.answer_serialise_comm s hk _

theorem execCsum_comm (b : Bytes) : execCsum b (f s) = mapNext g (execCsum b s) := by
  unfold execCsum
  rw [hu.keyValid, hk.key]
  split
  · exact hu.done_comm s _
  · exact hu.raise_comm s _

theorem execCver_comm (b : Bytes) : execCver b (f s) = mapNext g (execCver b s) := by
  unfold execCver
  rw [hu.keyValid, hk.key]
  split_ifs
  · exact hu.raise_comm s _
  · exact hu.raise_comm s _
  · exact hu.done_comm s _

theorem transmit_comm (v u : Packet) : transmit v u (f s) = f (transmit v u s) := by
  rw [transmit, transmit, hu.nextSeq_eq, hu.registered_eq, hu.frameOf_eq s hk, hu.setSeq_comm, hu.emit_comm, hu.setWindow_comm]

theorem execSend_comm (v : Packet) : execSend v (f s) = mapNext g (execSend v s) := by
  unfold execSend
  rw [hu.isDropped_eq, hu.assigned_eq, hu.admissionFault_eq, hu.isTracked_eq, hu.window, hu.frameOf_eq s hk, hu.transmit_comm s hk]
  split
  · exact hu.done_comm s _
  · rcases admissionFault s (assigned s v) with _ | x
    · simp only
      split
      · exact hu.raise_comm s _
      · exact hu.done_comm _ _
    · exact hu.raise_comm s x

theorem execFire_comm (q : SeqId) : execFire q (f s) = mapNext g (execFire q s) := by
  unfold execFire
  rw [hu.window, hu.rtoTicks_eq]
  rcases lookup s.window q with _ | e
  · exact hu.next_silent_comm s
  · simp only [hu.frameOf_eq s hk, hu.emit_comm, hu.setWindow_comm]
    split
    · exact hu.next_silent_comm _
    · exact hu.next_silent_comm s

/-- A change that leaves KEY goes through every instruction. -/
theorem exec_comm_of_keyUnchanged (i : Instr) : exec i (f s) = mapNext g (exec i s) := by
  cases hi : usesKey i with
  | false => exact hu.exec_comm s hi
  | true =>
    cases i
    case syn flags use => exact hu.applyFormat_comm s hk (type := Cfg.tSyn) (fun _ _ => rfl) _ flags use
    case connect flags use => exact hu.applyFormat_comm s hk (type := Cfg.tConnect) (fun _ _ => rfl) _ flags use
    case data flags use => exact hu.applyFormat_comm s hk (type := Cfg.tData) (fun _ _ => rfl) _ flags use
    case disconnect flags use => exact hu.applyFormat_comm s hk (type := Cfg.tDisconnect) (fun _ _ => rfl) _ flags use
    case ping flags use => exact hu.applyFormat_comm s hk (type := Cfg.tPing) (fun _ _ => rfl) _ flags use
    case ser v => exact hu.answer_serialise_comm s hk v
    case keyb k => exact (congrArg (done .nothing) (hk.loadKey_comm s _)).trans (hu.done_comm _ _)
    case keyn n => exact (congrArg (done .nothing) (hk.loadKey_comm s _)).trans (hu.done_comm _ _)
    case csum b => exact hu.execCsum_comm s hk b
    case cver b => exact hu.execCver_comm s hk b
    case send v => exact hu.execSend_comm s hk v
    case fire q => exact hu.execFire_comm s hk q
    all_goals cases hi

end Unread

/-! The last response (rule R29). -/

/-- Every instruction writes the response port, so nothing is left of what stood there. -/
theorem unread_response (r : Option Response) : Unread (fun s => { s with response := r }) id where
  cfg s := ⟨s.cfg.tickPeriod, rfl⟩
  keyValid _ := rfl
  seq _ := rfl
  window _ := rfl
  rng _ := rfl
  setSeq_comm _ _ := rfl
  setWindow_comm _ _ := rfl
  emit_comm _ _ := rfl
  afterDraw_comm _ _ := rfl
  respond_comm _ _ := rfl
  silent_comm _ := rfl

theorem mapNext_id (a : Answer) : mapNext id a = a := by
  cases a <;> rfl

/-! The TX log (rule R43). -/

/-- The TX log with older frames before it. -/
def withOlderTx (log : List Bytes) (s : State) : State := { s with tx := log ++ s.tx }

theorem unread_olderTx (log : List Bytes) : Unread (withOlderTx log) (withOlderTx log) where
  cfg s := ⟨s.cfg.tickPeriod, rfl⟩
  keyValid _ := rfl
  seq _ := rfl
  window _ := rfl
  rng _ := rfl
  setSeq_comm _ _ := rfl
  setWindow_comm _ _ := rfl
  emit_comm s b := by simp [withOlderTx, emit]
  afterDraw_comm _ _ := rfl
  respond_comm _ _ := rfl
  silent_comm _ := rfl

/-- What an instruction does under any TX log is what it does under the empty one. -/
theorem exec_tx {i : Instr} {s t : State} (h : exec i { s with tx := [] } = .next t) (log : List Bytes) :
    exec i { s with tx := log } = .next { t with tx := log ++ t.tx } := by
  have hlog : withOlderTx log { s with tx := [] } = { s with tx := log } := by simp [withOlderTx]
  rw [← hlog, (unread_olderTx log).exec_comm_of_keyUnchanged _ ⟨fun _ => rfl, fun _ _ => rfl⟩, h]
  rfl

/-- Settles O56: nothing is left of the last response, and the frames an instruction appends are those it puts on an empty log. -/
theorem outputsAreNotRead : Obligations.OutputsAreNotRead := by
  intro i s t h
  refine ⟨fun r => ?_, ?_⟩
  · exact ((unread_response r).exec_comm_of_keyUnchanged s ⟨fun _ => rfl, fun _ _ => rfl⟩ i).trans ((mapNext_id _).trans h)
  · obtain ⟨u, hu⟩ := exec_next i { s with tx := [] }
    cases h.symm.trans (exec_tx hu s.tx)
    exact ⟨u.tx, rfl, exec_tx hu⟩

/-! KEY (rule R36). -/

theorem unread_key (k : Byte) : Unread (fun s => { s with key := k }) (fun s => { s with key := k }) where
  cfg s := ⟨s.cfg.tickPeriod, rfl⟩
  keyValid _ := rfl
  seq _ := rfl
  window _ := rfl
  rng _ := rfl
  setSeq_comm _ _ := rfl
  setWindow_comm _ _ := rfl
  emit_comm _ _ := rfl
  afterDraw_comm _ _ := rfl
  respond_comm _ _ := rfl
  silent_comm _ := rfl

theorem serialises_eq_true {use : FormatUse} (h : serialises use = true) : ∃ v, use = .serialise v := by
  cases use with
  | parse src dst rest => cases h
  | serialise v => exact ⟨v, rfl⟩

/-- Settles O57: the instructions left are those that do not use KEY, and a change of KEY goes through each. -/
theorem keyReaders : Obligations.KeyReaders := by
  intro i s t k h hcsum hcver hser hsend hfire hkeyb hkeyn hrows
  have hi : usesKey i = false := Bool.eq_false_iff.2 fun hi => by
    cases i
    case syn flags use =>
      obtain ⟨v, rfl⟩ := serialises_eq_true hi
      exact (hrows flags v).1 rfl
    case connect flags use =>
      obtain ⟨v, rfl⟩ := serialises_eq_true hi
      obtain ⟨-, hno, -⟩ := hrows flags v
      exact hno rfl
    case data flags use =>
      obtain ⟨v, rfl⟩ := serialises_eq_true hi
      obtain ⟨-, -, hno, -⟩ := hrows flags v
      exact hno rfl
    case disconnect flags use =>
      obtain ⟨v, rfl⟩ := serialises_eq_true hi
      obtain ⟨-, -, -, hno, -⟩ := hrows flags v
      exact hno rfl
    case ping flags use =>
      obtain ⟨v, rfl⟩ := serialises_eq_true hi
      obtain ⟨-, -, -, -, hno⟩ := hrows flags v
      exact hno rfl
    case ser v => exact hser v rfl
    case keyb b => exact hkeyb b rfl
    case keyn n => exact hkeyn n rfl
    case csum b => exact hcsum b rfl
    case cver b => exact hcver b rfl
    case send v => exact hsend v rfl
    case fire q => exact hfire q rfl
    all_goals cases hi
  rw [(unread_key k).exec_comm s hi, h]
  rfl

/-! TICK_PERIOD (rule R7). -/

/-- The straps with another length of a TICK. -/
def withTickPeriod (p : Nat) (s : State) : State := { s with cfg := { s.cfg with tickPeriod := p } }

theorem unread_tickPeriod (p : Nat) : Unread (withTickPeriod p) (withTickPeriod p) where
  cfg _ := ⟨p, rfl⟩
  keyValid _ := rfl
  seq _ := rfl
  window _ := rfl
  rng _ := rfl
  setSeq_comm _ _ := rfl
  setWindow_comm _ _ := rfl
  emit_comm _ _ := rfl
  afterDraw_comm _ _ := rfl
  respond_comm _ _ := rfl
  silent_comm _ := rfl

theorem keyUnchanged_tickPeriod (p : Nat) : KeyUnchanged (withTickPeriod p) := ⟨fun _ => rfl, fun _ _ => rfl⟩

theorem exec_tickPeriod (p : Nat) (i : Instr) (s : State) : exec i (withTickPeriod p s) = mapNext (withTickPeriod p) (exec i s) :=
  (unread_tickPeriod p).exec_comm_of_keyUnchanged s (keyUnchanged_tickPeriod p) i

theorem decode_tickPeriod (p : Nat) (r : Request) (s : State) : decode (withTickPeriod p s).cfg r = decode s.cfg r := rfl

theorem instrWf_tickPeriod (p : Nat) (i : Instr) (s : State) : i.wf (withTickPeriod p s).cfg = i.wf s.cfg := rfl

theorem fits_tickPeriod (p : Nat) (use : FormatUse) (s : State) : use.fits (withTickPeriod p s).cfg = use.fits s.cfg := rfl

theorem runUnassigned_tickPeriod (p : Nat) (tf : BitVec 16) (use : FormatUse) (s : State) :
    runUnassigned tf use (withTickPeriod p s) = mapNext (withTickPeriod p) (runUnassigned tf use s) := by
  rw [runUnassigned, runUnassigned, fits_tickPeriod]
  split
  · exact (unread_tickPeriod p).applyFormat_comm s (keyUnchanged_tickPeriod p) (type := fun _ => tfType tf) (fun _ _ => rfl) ..
  · rfl

/-- A request decodes alike, and what it then runs does not read TICK_PERIOD. -/
theorem runRequest_tickPeriod (p : Nat) (r : Request) (s : State) :
    runRequest r (withTickPeriod p s) = mapNext (withTickPeriod p) (runRequest r s) := by
  unfold runRequest
  rw [decode_tickPeriod]
  rcases decode s.cfg r with (code | type) | i
  · rfl
  · cases r with
    | coded code ops => rfl
    | format tf use => exact runUnassigned_tickPeriod p tf use s
  · show (if i.wf (withTickPeriod p s).cfg then exec i (withTickPeriod p s) else _)
      = mapNext (withTickPeriod p) (if i.wf s.cfg then exec i s else _)
    rw [instrWf_tickPeriod]
    split
    · exact exec_tickPeriod p i s
    · rfl

theorem step_tickPeriod (p : Nat) (s : State) : step (withTickPeriod p s) = mapNext (withTickPeriod p) (step s) := by
  have hc : cfgValid (withTickPeriod p s).cfg = cfgValid s.cfg := rfl
  have hs : (withTickPeriod p s).sched = s.sched := rfl
  rw [step, step, takeNext, takeNext, hc, hs]
  split
  · rcases s.sched with _ | ⟨_ | r, rest⟩
    · rfl
    · exact runRequest_tickPeriod p _ (setSched s rest)
    · rfl
  · rfl

/-- Settles O58: a change of TICK_PERIOD goes through the step. -/
theorem tickPeriodIsNotRead : Obligations.TickPeriodIsNotRead := fun s _ p h =>
  (step_tickPeriod p s).trans (congrArg (mapNext (withTickPeriod p)) h)

end Sys2Proof.Machine
end
